-- ==== Sys2Proof/Word.lean ====
section
/-! DEFINITION. The machine word, the byte, the register index, and the narrowing `w32` of `00_scope.md` rule R7.

The spec's `u(v)` is `v.toNat` and its `s(v)` is `v.toInt`; `x << k` is `x <<< k`; every wrap is `w32` or the
arithmetic of `BitVec 32`, which is the arithmetic modulo 2^32. -/

namespace Sys2Proof

/-- A 32-bit value: a register, the pc, a memory word (rule R5, XLEN = 32). -/
abbrev Word := BitVec 32

/-- An 8-bit memory cell (rules R9 and R30). -/
abbrev Byte := BitVec 8

/-- A register index, 0 to 31 (rules R5 and R11). -/
abbrev Reg := Fin 32

/-- `w32(n)`: the 32-bit vector whose unsigned value is `n mod 2^32`, for any integer (rule R7). -/
def w32 (n : Int) : Word := BitVec.ofInt 32 n

end Sys2Proof
end

