-- ==== Sys2Proof/Config.lean ====
section
/-! DEFINITION. What is fixed for the machine: the parameters of `00_scope.md` rules R5 and R6.

The spec leaves no value open (`93_implementation_defined.md`: "No behaviour in this spec is left as `any value`"),
so this file holds no free value. -/

namespace Sys2Proof.Config

/-- The address of the first instruction, where a run starts (rules R5, R25 and R211). -/
def entryPoint : Word := 0#32

/-- The 32-bit ceiling of the data space (rule R5). -/
def addressCeiling : Nat := 0xFFFFFFFF

/-- What a data byte that nothing has written reads as (rules R5 and R30). -/
def unwrittenByte : Byte := 0#8

/-- The value of every register after reset (rule R25, the spec's decision D7). -/
def resetRegister : Word := 0#32

/-- The greatest number of instructions of a program (rule R6, the spec's decision D8). -/
def maxProgramLength : Nat := 2 ^ 30 - 1

/-- The least 12-bit signed immediate (rule R66). -/
def immMin : Int := -2048

/-- The greatest 12-bit signed immediate (rule R66). -/
def immMax : Int := 2047

/-- The greatest shift amount an immediate may name (rule R66). -/
def shamtMax : Nat := 31

/-- The greatest immediate of `lui` (rule R66). -/
def upperMax : Nat := 0xFFFFF

end Sys2Proof.Config
end

