-- ==== Sys2Proof/Syntax.lean ====
section
/-! DEFINITION. The forms an instruction takes: the resolved record `Instr` (`30_encoding.md` rules R52 and R53), the
source record and the 32-bit word it is decoded from (rules R51 and R70), the program a host supplies (`00_scope.md`
rule R6), and the names of the fault kinds (`60_exceptions.md` rule R181). -/

namespace Sys2Proof

/-- A resolved record (rule R52): an opcode tag of the 36 of rule R1 and its operand slots in source order (rule R53).
An immediate is a mathematical integer, its range checked in `WellFormed`; a target is a byte address. -/
inductive Instr where
  /-- Shape `U` (rule R110): `lui rd, imm`. -/
  | lui (rd : Reg) (imm : Nat)
  /-- Shape `J` (rule R115): `jal rd, label`; the target is a byte address. -/
  | jal (rd : Reg) (target : Word)
  /-- Shape `JR` (rule R116): `jalr rd, imm(rs1)`. -/
  | jalr (rd rs1 : Reg) (imm : Int)
  /-- Shape `B` (rules R120 to R126): `op rs1, rs2, label`; the target is a byte address. -/
  | beq (rs1 rs2 : Reg) (target : Word)
  | bne (rs1 rs2 : Reg) (target : Word)
  | blt (rs1 rs2 : Reg) (target : Word)
  | bge (rs1 rs2 : Reg) (target : Word)
  | bltu (rs1 rs2 : Reg) (target : Word)
  | bgeu (rs1 rs2 : Reg) (target : Word)
  /-- Shape `L` (rules R160 to R165): `op rd, imm(rs1)`. -/
  | lb (rd rs1 : Reg) (imm : Int)
  | lh (rd rs1 : Reg) (imm : Int)
  | lw (rd rs1 : Reg) (imm : Int)
  | lbu (rd rs1 : Reg) (imm : Int)
  | lhu (rd rs1 : Reg) (imm : Int)
  /-- Shape `S` (rules R170 to R173): `op rs2, imm(rs1)`. -/
  | sb (rs2 rs1 : Reg) (imm : Int)
  | sh (rs2 rs1 : Reg) (imm : Int)
  | sw (rs2 rs1 : Reg) (imm : Int)
  /-- Shape `I` (rules R130 to R136): `op rd, rs1, imm`. -/
  | addi (rd rs1 : Reg) (imm : Int)
  | slti (rd rs1 : Reg) (imm : Int)
  | sltiu (rd rs1 : Reg) (imm : Int)
  | xori (rd rs1 : Reg) (imm : Int)
  | ori (rd rs1 : Reg) (imm : Int)
  | andi (rd rs1 : Reg) (imm : Int)
  /-- Shape `SH` (rules R137 to R139): `op rd, rs1, shamt`. -/
  | slli (rd rs1 : Reg) (shamt : Nat)
  | srli (rd rs1 : Reg) (shamt : Nat)
  | srai (rd rs1 : Reg) (shamt : Nat)
  /-- Shape `R` (rules R145 to R155): `op rd, rs1, rs2`. -/
  | add (rd rs1 rs2 : Reg)
  | sub (rd rs1 rs2 : Reg)
  | sll (rd rs1 rs2 : Reg)
  | slt (rd rs1 rs2 : Reg)
  | sltu (rd rs1 rs2 : Reg)
  | xor (rd rs1 rs2 : Reg)
  | srl (rd rs1 rs2 : Reg)
  | sra (rd rs1 rs2 : Reg)
  | or (rd rs1 rs2 : Reg)
  | and (rd rs1 rs2 : Reg)
  deriving DecidableEq, Repr

/-- The opcode tag of a resolved record, as the spec spells it (rule R1). -/
def Instr.mnemonic : Instr → String
  | .lui _ _ => "lui"
  | .jal _ _ => "jal"
  | .jalr _ _ _ => "jalr"
  | .beq _ _ _ => "beq"
  | .bne _ _ _ => "bne"
  | .blt _ _ _ => "blt"
  | .bge _ _ _ => "bge"
  | .bltu _ _ _ => "bltu"
  | .bgeu _ _ _ => "bgeu"
  | .lb _ _ _ => "lb"
  | .lh _ _ _ => "lh"
  | .lw _ _ _ => "lw"
  | .lbu _ _ _ => "lbu"
  | .lhu _ _ _ => "lhu"
  | .sb _ _ _ => "sb"
  | .sh _ _ _ => "sh"
  | .sw _ _ _ => "sw"
  | .addi _ _ _ => "addi"
  | .slti _ _ _ => "slti"
  | .sltiu _ _ _ => "sltiu"
  | .xori _ _ _ => "xori"
  | .ori _ _ _ => "ori"
  | .andi _ _ _ => "andi"
  | .slli _ _ _ => "slli"
  | .srli _ _ _ => "srli"
  | .srai _ _ _ => "srai"
  | .add _ _ _ => "add"
  | .sub _ _ _ => "sub"
  | .sll _ _ _ => "sll"
  | .slt _ _ _ => "slt"
  | .sltu _ _ _ => "sltu"
  | .xor _ _ _ => "xor"
  | .srl _ _ _ => "srl"
  | .sra _ _ _ => "sra"
  | .or _ _ _ => "or"
  | .and _ _ _ => "and"

/-- A source record (rule R51): the opcode string and the two or three operand strings of one instruction line. -/
structure SourceRecord where
  op : String
  args : List String
  deriving DecidableEq, Repr

/-- One element `I[k]` of the instruction sequence, at either of the two levels of rule R50: the source record of the
record level, or the 32-bit value of the binary level (rule R70). -/
inductive Entry where
  | record (r : SourceRecord)
  | word (w : Word)
  deriving DecidableEq, Repr

/-- The label table `L` (rules R6 and R23): label name and byte address, in the order of their declaration. -/
abbrev LabelTable := List (String × Word)

/-- The value of a label, if the table holds it (rule R67). -/
def LabelTable.address? (table : LabelTable) (name : String) : Option Word :=
  (table.find? fun row => row.1 == name).map (·.2)

/-- What the resolver makes of the source lines (rule R63), or a host of words (rule R204): `I` and `L`. -/
structure Program where
  entries : List Entry
  labels : LabelTable
  deriving DecidableEq, Repr

/-- The fault kinds of rule R181: the seven of the document and the spec's own `addressMisaligned`. -/
inductive FaultKind where
  | syntaxError
  | duplicateLabel
  | unresolvedLabel
  | unsupportedOperation
  | unknownRegister
  | immediateParseError
  | addressOutOfBounds
  | addressMisaligned
  deriving DecidableEq, Repr

end Sys2Proof
end

