-- ==== Sys2Proof/WellFormed.lean ====
section
/-! DEFINITION. Which terms are instructions of the hardware: the ranges of `30_encoding.md` rule R66, the reach of a
binary target (rule R74), and the conditions rules R6 and R63 put on a program. -/

namespace Sys2Proof

/-- A 12-bit signed immediate (rule R66). -/
def immOk (imm : Int) : Bool := decide (Config.immMin ≤ imm ∧ imm ≤ Config.immMax)

/-- A shift amount (rule R66). -/
def shamtOk (shamt : Nat) : Bool := decide (shamt ≤ Config.shamtMax)

/-- The upper 20 bits of `lui` (rule R66). -/
def upperOk (imm : Nat) : Bool := decide (imm ≤ Config.upperMax)

/-- The immediates of a resolved record lie in the ranges of rule R66. -/
def Instr.wf : Instr → Bool
  | .lui _ imm => upperOk imm
  | .jal _ _ => true
  | .jalr _ _ imm => immOk imm
  | .beq _ _ _ => true
  | .bne _ _ _ => true
  | .blt _ _ _ => true
  | .bge _ _ _ => true
  | .bltu _ _ _ => true
  | .bgeu _ _ _ => true
  | .lb _ _ imm => immOk imm
  | .lh _ _ imm => immOk imm
  | .lw _ _ imm => immOk imm
  | .lbu _ _ imm => immOk imm
  | .lhu _ _ imm => immOk imm
  | .sb _ _ imm => immOk imm
  | .sh _ _ imm => immOk imm
  | .sw _ _ imm => immOk imm
  | .addi _ _ imm => immOk imm
  | .slti _ _ imm => immOk imm
  | .sltiu _ _ imm => immOk imm
  | .xori _ _ imm => immOk imm
  | .ori _ _ imm => immOk imm
  | .andi _ _ imm => immOk imm
  | .slli _ _ shamt => shamtOk shamt
  | .srli _ _ shamt => shamtOk shamt
  | .srai _ _ shamt => shamtOk shamt
  | .add _ _ _ => true
  | .sub _ _ _ => true
  | .sll _ _ _ => true
  | .slt _ _ _ => true
  | .sltu _ _ _ => true
  | .xor _ _ _ => true
  | .srl _ _ _ => true
  | .sra _ _ _ => true
  | .or _ _ _ => true
  | .and _ _ _ => true

/-- The offset of `jal`: even and within -1048576 to 1048574 (rule R74). -/
def jumpReach (pc target : Word) : Bool :=
  decide ((target - pc).toInt % 2 = 0 ∧ -1048576 ≤ (target - pc).toInt ∧ (target - pc).toInt ≤ 1048574)

/-- The offset of a branch: even and within -4096 to 4094 (rule R74). -/
def branchReach (pc target : Word) : Bool :=
  decide ((target - pc).toInt % 2 = 0 ∧ -4096 ≤ (target - pc).toInt ∧ (target - pc).toInt ≤ 4094)

/-- A binary word at address `pc` can hold this record (rule R74): only a target can be out of reach. -/
def Instr.encodable (pc : Word) : Instr → Bool
  | .lui _ _ => true
  | .jal _ target => jumpReach pc target
  | .jalr _ _ _ => true
  | .beq _ _ target => branchReach pc target
  | .bne _ _ target => branchReach pc target
  | .blt _ _ target => branchReach pc target
  | .bge _ _ target => branchReach pc target
  | .bltu _ _ target => branchReach pc target
  | .bgeu _ _ target => branchReach pc target
  | .lb _ _ _ => true
  | .lh _ _ _ => true
  | .lw _ _ _ => true
  | .lbu _ _ _ => true
  | .lhu _ _ _ => true
  | .sb _ _ _ => true
  | .sh _ _ _ => true
  | .sw _ _ _ => true
  | .addi _ _ _ => true
  | .slti _ _ _ => true
  | .sltiu _ _ _ => true
  | .xori _ _ _ => true
  | .ori _ _ _ => true
  | .andi _ _ _ => true
  | .slli _ _ _ => true
  | .srli _ _ _ => true
  | .srai _ _ _ => true
  | .add _ _ _ => true
  | .sub _ _ _ => true
  | .sll _ _ _ => true
  | .slt _ _ _ => true
  | .sltu _ _ _ => true
  | .xor _ _ _ => true
  | .srl _ _ _ => true
  | .sra _ _ _ => true
  | .or _ _ _ => true
  | .and _ _ _ => true

/-- A program the engine runs (rules R6 and R63): at most 2^30 - 1 instructions, and every label the address `4*k` of
an instruction `I[k]`. -/
def Program.wf (p : Program) : Bool :=
  decide (p.entries.length ≤ Config.maxProgramLength) &&
    p.labels.all fun row => decide (row.2.toNat % 4 = 0) && decide (row.2.toNat < 4 * p.entries.length)

end Sys2Proof
end

