-- ==== Sys2Proof/Decode.lean ====
section
/-! DEFINITION. The decoder at both levels, and the encoder. The record level (`30_encoding.md` rules R64 to R68,
`40_decode_dispatch.md` rule R92) reads register names, immediate literals and label names; the binary level (rules
R70 to R75 and R93) reads the fields of a 32-bit word. Both go through one table of rows, rule R73's. Every other
record or word is rejected by the name of a fault kind. -/

namespace Sys2Proof

/-! ## The opcode table (rules R53 and R73) -/

/-- A shape of rule R53, with the constructor of the resolved record that its slots are put into. -/
inductive Form where
  /-- `rd, imm` -/
  | u (mk : Reg → Nat → Instr)
  /-- `rd, target` -/
  | j (mk : Reg → Word → Instr)
  /-- `rd, imm(rs1)` of `jalr` -/
  | jr (mk : Reg → Reg → Int → Instr)
  /-- `rs1, rs2, target` -/
  | b (mk : Reg → Reg → Word → Instr)
  /-- `rd, imm(rs1)` of the loads -/
  | l (mk : Reg → Reg → Int → Instr)
  /-- `rs2, imm(rs1)` -/
  | s (mk : Reg → Reg → Int → Instr)
  /-- `rd, rs1, imm` -/
  | i (mk : Reg → Reg → Int → Instr)
  /-- `rd, rs1, shamt` -/
  | sh (mk : Reg → Reg → Nat → Instr)
  /-- `rd, rs1, rs2` -/
  | r (mk : Reg → Reg → Reg → Instr)

/-- One row of the opcode map: a word `w` is the instruction iff `w & mask = pattern` (rule R73). -/
structure Row where
  mnemonic : String
  pattern : Word
  mask : Word
  form : Form

/-- Rule R73: `lui`. -/
def rowsUpper : List Row := [
  ⟨"lui", 0x00000037, 0x0000007F, .u .lui⟩]

/-- Rule R73: `jal`, `jalr`. -/
def rowsJump : List Row := [
  ⟨"jal", 0x0000006F, 0x0000007F, .j .jal⟩,
  ⟨"jalr", 0x00000067, 0x0000707F, .jr .jalr⟩]

/-- Rule R73: `beq`, `bne`, `blt`, `bge`, `bltu`, `bgeu`. -/
def rowsBranch : List Row := [
  ⟨"beq", 0x00000063, 0x0000707F, .b .beq⟩,
  ⟨"bne", 0x00001063, 0x0000707F, .b .bne⟩,
  ⟨"blt", 0x00004063, 0x0000707F, .b .blt⟩,
  ⟨"bge", 0x00005063, 0x0000707F, .b .bge⟩,
  ⟨"bltu", 0x00006063, 0x0000707F, .b .bltu⟩,
  ⟨"bgeu", 0x00007063, 0x0000707F, .b .bgeu⟩]

/-- Rule R73: `lb`, `lh`, `lw`, `lbu`, `lhu`. -/
def rowsLoad : List Row := [
  ⟨"lb", 0x00000003, 0x0000707F, .l .lb⟩,
  ⟨"lh", 0x00001003, 0x0000707F, .l .lh⟩,
  ⟨"lw", 0x00002003, 0x0000707F, .l .lw⟩,
  ⟨"lbu", 0x00004003, 0x0000707F, .l .lbu⟩,
  ⟨"lhu", 0x00005003, 0x0000707F, .l .lhu⟩]

/-- Rule R73: `sb`, `sh`, `sw`. -/
def rowsStore : List Row := [
  ⟨"sb", 0x00000023, 0x0000707F, .s .sb⟩,
  ⟨"sh", 0x00001023, 0x0000707F, .s .sh⟩,
  ⟨"sw", 0x00002023, 0x0000707F, .s .sw⟩]

/-- Rule R73: `addi`, `slti`, `sltiu`, `xori`, `ori`, `andi`. -/
def rowsAluImm : List Row := [
  ⟨"addi", 0x00000013, 0x0000707F, .i .addi⟩,
  ⟨"slti", 0x00002013, 0x0000707F, .i .slti⟩,
  ⟨"sltiu", 0x00003013, 0x0000707F, .i .sltiu⟩,
  ⟨"xori", 0x00004013, 0x0000707F, .i .xori⟩,
  ⟨"ori", 0x00006013, 0x0000707F, .i .ori⟩,
  ⟨"andi", 0x00007013, 0x0000707F, .i .andi⟩]

/-- Rule R73: `slli`, `srli`, `srai`. -/
def rowsShiftImm : List Row := [
  ⟨"slli", 0x00001013, 0xFE00707F, .sh .slli⟩,
  ⟨"srli", 0x00005013, 0xFE00707F, .sh .srli⟩,
  ⟨"srai", 0x40005013, 0xFE00707F, .sh .srai⟩]

/-- Rule R73: `add`, `sub`, `sll`, `slt`, `sltu`, `xor`, `srl`, `sra`, `or`, `and`. -/
def rowsAluReg : List Row := [
  ⟨"add", 0x00000033, 0xFE00707F, .r .add⟩,
  ⟨"sub", 0x40000033, 0xFE00707F, .r .sub⟩,
  ⟨"sll", 0x00001033, 0xFE00707F, .r .sll⟩,
  ⟨"slt", 0x00002033, 0xFE00707F, .r .slt⟩,
  ⟨"sltu", 0x00003033, 0xFE00707F, .r .sltu⟩,
  ⟨"xor", 0x00004033, 0xFE00707F, .r .xor⟩,
  ⟨"srl", 0x00005033, 0xFE00707F, .r .srl⟩,
  ⟨"sra", 0x40005033, 0xFE00707F, .r .sra⟩,
  ⟨"or", 0x00006033, 0xFE00707F, .r .or⟩,
  ⟨"and", 0x00007033, 0xFE00707F, .r .and⟩]

/-- The opcode map of rule R73, 36 rows. -/
def rows : List Row :=
  rowsUpper ++ rowsJump ++ rowsBranch ++ rowsLoad ++ rowsStore ++ rowsAluImm ++ rowsShiftImm ++ rowsAluReg

/-! ## Fields and immediates of a binary word (rules R71 and R72) -/

/-- `rd = w[11:7]`. -/
def rdField (w : Word) : Reg := (w.extractLsb' 7 5).toFin

/-- `rs1 = w[19:15]`. -/
def rs1Field (w : Word) : Reg := (w.extractLsb' 15 5).toFin

/-- `rs2 = w[24:20]`. -/
def rs2Field (w : Word) : Reg := (w.extractLsb' 20 5).toFin

/-- `shamt = u(w[24:20])`. -/
def shamtField (w : Word) : Nat := (w.extractLsb' 20 5).toNat

/-- `u(w[31:12])`, the immediate of `lui`. -/
def upperField (w : Word) : Nat := (w.extractLsb' 12 20).toNat

/-- `immI(w) = sext_12(w[31:20])`. -/
def immI (w : Word) : Word := (w.extractLsb' 20 12).signExtend 32

/-- `immS(w) = sext_12({w[31:25], w[11:7]})`. -/
def immS (w : Word) : Word := (w.extractLsb' 25 7 ++ w.extractLsb' 7 5).signExtend 32

/-- `immB(w) = sext_13({w[31], w[7], w[30:25], w[11:8], 0})`. -/
def immB (w : Word) : Word :=
  (w.extractLsb' 31 1 ++ w.extractLsb' 7 1 ++ w.extractLsb' 25 6 ++ w.extractLsb' 8 4 ++ 0#1).signExtend 32

/-- `immJ(w) = sext_21({w[31], w[19:12], w[20], w[30:21], 0})`. -/
def immJ (w : Word) : Word :=
  (w.extractLsb' 31 1 ++ w.extractLsb' 12 8 ++ w.extractLsb' 20 1 ++ w.extractLsb' 21 10 ++ 0#1).signExtend 32

/-! ## The binary level (rules R74, R75 and R93) -/

/-- The slots of the resolved record, from the fields of `w` at address `pc` (the table of rule R74). -/
def Form.ofWord (w pc : Word) : Form → Instr
  | .u mk => mk (rdField w) (upperField w)
  | .j mk => mk (rdField w) (pc + immJ w)
  | .jr mk => mk (rdField w) (rs1Field w) (immI w).toInt
  | .b mk => mk (rs1Field w) (rs2Field w) (pc + immB w)
  | .l mk => mk (rdField w) (rs1Field w) (immI w).toInt
  | .s mk => mk (rs2Field w) (rs1Field w) (immS w).toInt
  | .i mk => mk (rdField w) (rs1Field w) (immI w).toInt
  | .sh mk => mk (rdField w) (rs1Field w) (shamtField w)
  | .r mk => mk (rdField w) (rs1Field w) (rs2Field w)

/-- `w & mask = match` (rule R73). -/
def Row.accepts (r : Row) (w : Word) : Bool := (w &&& r.mask) == r.pattern

/-- `decodeWord(w, pc)` of rule R74: the one row that accepts the word, or `UnsupportedOperation` (rule R75). -/
def decodeWord (w pc : Word) : Except FaultKind Instr :=
  match rows.find? fun r => r.accepts w with
  | some r => .ok (r.form.ofWord w pc)
  | none => .error .unsupportedOperation

/-! ## Register names (rules R13 and R65) -/

/-- The literal names, in index order (rule R65: no sign, no leading zero). -/
def literalNames : List String :=
  ["x0", "x1", "x2", "x3", "x4", "x5", "x6", "x7"] ++
  ["x8", "x9", "x10", "x11", "x12", "x13", "x14", "x15"] ++
  ["x16", "x17", "x18", "x19", "x20", "x21", "x22", "x23"] ++
  ["x24", "x25", "x26", "x27", "x28", "x29", "x30", "x31"]

/-- The aliases, in index order (the table of rule R13). -/
def aliasNames : List String :=
  ["zero", "ra", "sp", "gp", "tp", "t0", "t1", "t2"] ++
  ["s0", "s1", "a0", "a1", "a2", "a3", "a4", "a5"] ++
  ["a6", "a7", "s2", "s3", "s4", "s5", "s6", "s7"] ++
  ["s8", "s9", "s10", "s11", "t3", "t4", "t5", "t6"]

/-- The index a name has in a list of the 32 names. -/
def regIn (names : List String) (name : String) : Option Reg :=
  (names.idxOf? name).bind fun k => if h : k < 32 then some ⟨k, h⟩ else none

/-- A register name resolves to its index by either list, compared exactly (rule R65). -/
def regOfName (name : String) : Option Reg :=
  (regIn literalNames name).or (regIn aliasNames name)

/-- A register slot; an unknown name never defaults to an index (rules R65 and R184). -/
def regSlot (name : String) : Except FaultKind Reg :=
  match regOfName name with
  | some r => .ok r
  | none => .error .unknownRegister

/-! ## Immediate literals (rule R66) -/

/-- The value of a hexadecimal, decimal, octal or binary digit, below its base. -/
def digitValue (base : Nat) (c : Char) : Option Nat :=
  let v :=
    if '0' ≤ c ∧ c ≤ '9' then some (c.toNat - 48)
    else if 'a' ≤ c ∧ c ≤ 'f' then some (c.toNat - 87)
    else if 'A' ≤ c ∧ c ≤ 'F' then some (c.toNat - 55)
    else none
  v.filter (· < base)

/-- Digits read from the left onto the value so far. -/
def digitsValue (base : Nat) : Nat → List Char → Option Nat
  | acc, [] => some acc
  | acc, c :: cs => (digitValue base c).bind fun d => digitsValue base (acc * base + d) cs

/-- One or more digits of the base. -/
def digits1 (base : Nat) (cs : List Char) : Option Nat :=
  if cs.isEmpty then none else digitsValue base 0 cs

/-- `magnitude` of rule R66: a radix prefix and digits, a single zero, or a decimal without a leading zero. -/
def magnitude : List Char → Option Nat
  | [] => none
  | c :: cs =>
    if c = '0' then
      match cs with
      | [] => some 0
      | p :: ds =>
        if p = 'x' ∨ p = 'X' then digits1 16 ds
        else if p = 'b' ∨ p = 'B' then digits1 2 ds
        else if p = 'o' ∨ p = 'O' then digits1 8 ds
        else none
    else digitsValue 10 0 (c :: cs)

/-- `literal` of rule R66: an optional sign and a magnitude. -/
def literalValue : List Char → Option Int
  | [] => none
  | c :: cs =>
    if c = '-' then (magnitude cs).map fun (n : Nat) => -(n : Int)
    else if c = '+' then (magnitude cs).map fun (n : Nat) => (n : Int)
    else (magnitude (c :: cs)).map fun (n : Nat) => (n : Int)

/-- An immediate slot: a literal within the range of its slot, or `ImmediateParseError` (rule R66). -/
def immSlot (lo hi : Int) (cs : List Char) : Except FaultKind Int :=
  match literalValue cs with
  | some v => if lo ≤ v ∧ v ≤ hi then .ok v else .error .immediateParseError
  | none => .error .immediateParseError

/-- The 12-bit slot of shapes `I`, `JR`, `L` and `S`. -/
def imm12Slot (cs : List Char) : Except FaultKind Int := immSlot Config.immMin Config.immMax cs

/-! ## The offset-and-base operand (rule R68) and the target (rule R67) -/

/-- The text before the first `(` and the text from there to a `)` that ends the token. -/
def splitBase (token : String) : Option (List Char × List Char) :=
  let lit := token.toList.takeWhile (· ≠ '(')
  let rest := (token.toList.dropWhile (· ≠ '(')).drop 1
  let name := rest.takeWhile (· ≠ ')')
  if rest.dropWhile (· ≠ ')') = [')'] then some (lit, name) else none

/-- `imm(reg)`: the form, then the literal, then the register name (rules R68 and R189). -/
def baseSlot (token : String) : Except FaultKind (Int × Reg) :=
  match splitBase token with
  | none => .error .immediateParseError
  | some (lit, name) => do
    let imm ← imm12Slot lit
    let rs1 ← regSlot (String.ofList name)
    pure (imm, rs1)

/-- A target slot holds a label name only (rule R67). -/
def targetSlot (table : LabelTable) (name : String) : Except FaultKind Word :=
  match table.address? name with
  | some t => .ok t
  | none => .error .unresolvedLabel

/-! ## The record level (rule R92) -/

/-- Steps 2 to 4 of rule R92: the operand count, then the slots left to right. -/
def Form.ofArgs (table : LabelTable) : Form → List String → Except FaultKind Instr
  | .u mk, [a1, a2] => do
    let rd ← regSlot a1
    let imm ← immSlot 0 Config.upperMax a2.toList
    pure (mk rd imm.toNat)
  | .j mk, [a1, a2] => do
    let rd ← regSlot a1
    let target ← targetSlot table a2
    pure (mk rd target)
  | .jr mk, [a1, a2] => do
    let rd ← regSlot a1
    let (imm, rs1) ← baseSlot a2
    pure (mk rd rs1 imm)
  | .b mk, [a1, a2, a3] => do
    let rs1 ← regSlot a1
    let rs2 ← regSlot a2
    let target ← targetSlot table a3
    pure (mk rs1 rs2 target)
  | .l mk, [a1, a2] => do
    let rd ← regSlot a1
    let (imm, rs1) ← baseSlot a2
    pure (mk rd rs1 imm)
  | .s mk, [a1, a2] => do
    let rs2 ← regSlot a1
    let (imm, rs1) ← baseSlot a2
    pure (mk rs2 rs1 imm)
  | .i mk, [a1, a2, a3] => do
    let rd ← regSlot a1
    let rs1 ← regSlot a2
    let imm ← imm12Slot a3.toList
    pure (mk rd rs1 imm)
  | .sh mk, [a1, a2, a3] => do
    let rd ← regSlot a1
    let rs1 ← regSlot a2
    let shamt ← immSlot 0 Config.shamtMax a3.toList
    pure (mk rd rs1 shamt.toNat)
  | .r mk, [a1, a2, a3] => do
    let rd ← regSlot a1
    let rs1 ← regSlot a2
    let rs2 ← regSlot a3
    pure (mk rd rs1 rs2)
  | _, _ => .error .syntaxError

/-- The row of an opcode string, compared exactly (rules R75 and R94). -/
def rowOfOp (op : String) : Option Row := rows.find? fun r => r.mnemonic == op

/-- `decode(rec, pc, L)` at the record level (rule R92); it depends on `rec` and `L` only. -/
def decodeRecord (table : LabelTable) (rec : SourceRecord) : Except FaultKind Instr :=
  match rowOfOp rec.op with
  | some r => r.form.ofArgs table rec.args
  | none => .error .unsupportedOperation

/-- The label a record refers to, if its opcode has a target slot and its operand count is right (rule R185). -/
def SourceRecord.labelRef (rec : SourceRecord) : Option String :=
  match rowOfOp rec.op, rec.args with
  | some ⟨_, _, _, .j _⟩, [_, name] => some name
  | some ⟨_, _, _, .b _⟩, [_, _, name] => some name
  | _, _ => none

/-- Decode of one element of the instruction sequence (step 2 of rule R90). -/
def decodeEntry (table : LabelTable) (pc : Word) : Entry → Except FaultKind Instr
  | .record r => decodeRecord table r
  | .word w => decodeWord w pc

/-- The word of an opcode-table row given as a number: its low `nbits` bits, the rest zero. -/
def tableWord (nbits w : Nat) : Word := BitVec.ofNat 32 (w % 2 ^ nbits)

/-- The instruction the decoder reads from an instruction of `nbits` bits at the entry point; every instruction is one
32-bit word (rule R77), so a longer one is refused. -/
def decodeTableWord (nbits w : Nat) : Option Instr :=
  if nbits ≤ 32 then (decodeWord (tableWord nbits w) Config.entryPoint).toOption else none

/-! ## The encoder (rules R71 to R74, read the other way) -/

/-- A register index as a 5-bit field. -/
def regBits (r : Reg) : BitVec 5 := BitVec.ofFin r

/-- Format R, and format I (shift) with the amount in the place of `rs2`. -/
def encR (funct7 : BitVec 7) (rs2 rs1 : BitVec 5) (funct3 : BitVec 3) (rd : BitVec 5) (op : BitVec 7) : Word :=
  funct7 ++ rs2 ++ rs1 ++ funct3 ++ rd ++ op

/-- Format I. -/
def encI (imm : Int) (rs1 : Reg) (funct3 : BitVec 3) (rd : Reg) (op : BitVec 7) : Word :=
  BitVec.ofInt 12 imm ++ regBits rs1 ++ funct3 ++ regBits rd ++ op

/-- Format S. -/
def encS (imm : Int) (rs2 rs1 : Reg) (funct3 : BitVec 3) (op : BitVec 7) : Word :=
  let v := BitVec.ofInt 12 imm
  v.extractLsb' 5 7 ++ regBits rs2 ++ regBits rs1 ++ funct3 ++ v.extractLsb' 0 5 ++ op

/-- Format B, of the offset from the branch to its target. -/
def encB (off : Word) (rs2 rs1 : Reg) (funct3 : BitVec 3) (op : BitVec 7) : Word :=
  off.extractLsb' 12 1 ++ off.extractLsb' 5 6 ++ regBits rs2 ++ regBits rs1 ++ funct3 ++
    off.extractLsb' 1 4 ++ off.extractLsb' 11 1 ++ op

/-- Format U. -/
def encU (imm : Nat) (rd : Reg) (op : BitVec 7) : Word := BitVec.ofNat 20 imm ++ regBits rd ++ op

/-- Format J, of the offset from the jump to its target. -/
def encJ (off : Word) (rd : Reg) (op : BitVec 7) : Word :=
  off.extractLsb' 20 1 ++ off.extractLsb' 1 10 ++ off.extractLsb' 11 1 ++ off.extractLsb' 12 8 ++ regBits rd ++ op

/-- A shift by an immediate: format I (shift). -/
def encSh (funct7 : BitVec 7) (shamt : Nat) (rs1 : Reg) (funct3 : BitVec 3) (rd : Reg) : Word :=
  encR funct7 (BitVec.ofNat 5 shamt) (regBits rs1) funct3 (regBits rd) 0b0010011#7

/-- A register-register operation: format R. -/
def encAlu (funct7 : BitVec 7) (rs2 rs1 : Reg) (funct3 : BitVec 3) (rd : Reg) : Word :=
  encR funct7 (regBits rs2) (regBits rs1) funct3 (regBits rd) 0b0110011#7

/-- The word that holds a resolved record at address `pc` (rules R71 to R74); the field values are those of the opcode
map of rule R73, written out here once more. -/
def encode (pc : Word) : Instr → Word
  | .lui rd imm => encU imm rd 0b0110111#7
  | .jal rd target => encJ (target - pc) rd 0b1101111#7
  | .jalr rd rs1 imm => encI imm rs1 0b000#3 rd 0b1100111#7
  | .beq rs1 rs2 target => encB (target - pc) rs2 rs1 0b000#3 0b1100011#7
  | .bne rs1 rs2 target => encB (target - pc) rs2 rs1 0b001#3 0b1100011#7
  | .blt rs1 rs2 target => encB (target - pc) rs2 rs1 0b100#3 0b1100011#7
  | .bge rs1 rs2 target => encB (target - pc) rs2 rs1 0b101#3 0b1100011#7
  | .bltu rs1 rs2 target => encB (target - pc) rs2 rs1 0b110#3 0b1100011#7
  | .bgeu rs1 rs2 target => encB (target - pc) rs2 rs1 0b111#3 0b1100011#7
  | .lb rd rs1 imm => encI imm rs1 0b000#3 rd 0b0000011#7
  | .lh rd rs1 imm => encI imm rs1 0b001#3 rd 0b0000011#7
  | .lw rd rs1 imm => encI imm rs1 0b010#3 rd 0b0000011#7
  | .lbu rd rs1 imm => encI imm rs1 0b100#3 rd 0b0000011#7
  | .lhu rd rs1 imm => encI imm rs1 0b101#3 rd 0b0000011#7
  | .sb rs2 rs1 imm => encS imm rs2 rs1 0b000#3 0b0100011#7
  | .sh rs2 rs1 imm => encS imm rs2 rs1 0b001#3 0b0100011#7
  | .sw rs2 rs1 imm => encS imm rs2 rs1 0b010#3 0b0100011#7
  | .addi rd rs1 imm => encI imm rs1 0b000#3 rd 0b0010011#7
  | .slti rd rs1 imm => encI imm rs1 0b010#3 rd 0b0010011#7
  | .sltiu rd rs1 imm => encI imm rs1 0b011#3 rd 0b0010011#7
  | .xori rd rs1 imm => encI imm rs1 0b100#3 rd 0b0010011#7
  | .ori rd rs1 imm => encI imm rs1 0b110#3 rd 0b0010011#7
  | .andi rd rs1 imm => encI imm rs1 0b111#3 rd 0b0010011#7
  | .slli rd rs1 shamt => encSh 0b0000000#7 shamt rs1 0b001#3 rd
  | .srli rd rs1 shamt => encSh 0b0000000#7 shamt rs1 0b101#3 rd
  | .srai rd rs1 shamt => encSh 0b0100000#7 shamt rs1 0b101#3 rd
  | .add rd rs1 rs2 => encAlu 0b0000000#7 rs2 rs1 0b000#3 rd
  | .sub rd rs1 rs2 => encAlu 0b0100000#7 rs2 rs1 0b000#3 rd
  | .sll rd rs1 rs2 => encAlu 0b0000000#7 rs2 rs1 0b001#3 rd
  | .slt rd rs1 rs2 => encAlu 0b0000000#7 rs2 rs1 0b010#3 rd
  | .sltu rd rs1 rs2 => encAlu 0b0000000#7 rs2 rs1 0b011#3 rd
  | .xor rd rs1 rs2 => encAlu 0b0000000#7 rs2 rs1 0b100#3 rd
  | .srl rd rs1 rs2 => encAlu 0b0000000#7 rs2 rs1 0b101#3 rd
  | .sra rd rs1 rs2 => encAlu 0b0100000#7 rs2 rs1 0b101#3 rd
  | .or rd rs1 rs2 => encAlu 0b0000000#7 rs2 rs1 0b110#3 rd
  | .and rd rs1 rs2 => encAlu 0b0000000#7 rs2 rs1 0b111#3 rd

end Sys2Proof
end

