-- ==== Sys2Proof/Machine/State.lean ====
section
/-! DEFINITION. The state of the machine, whole (`10_state.md` rule R10), with the program the host supplies (rules R6
and R10), the state after reset (rules R25 and R210), and the reasons a step is not taken. -/

namespace Sys2Proof.Machine

/-- The data memory `M` (rule R30): the cells that do not read as `Config.unwrittenByte`, addresses rising. -/
abbrev Memory := List Host.Cell

/-- The canonical form of a memory: addresses strictly rising and inside the data space, and no cell that holds what an
unlisted address reads as. -/
abbrev Memory.wf (m : Memory) : Prop :=
  m.Pairwise (fun a b => a.1 < b.1) ∧ ∀ c ∈ m, c.1 ≤ Config.addressCeiling ∧ c.2 ≠ Config.unwrittenByte

/-- What a fault is about, as the rules R182 to R188 list it. -/
inductive Offender where
  /-- The record or the word at the pc (rules R184, R186, R187, R188; R182 for the decoder's case). -/
  | entry (e : Entry)
  /-- A source line (rule R182, the resolver's case). -/
  | line (tokens : List String)
  /-- A label declared twice, or with no instruction after it (rules R183 and R182). -/
  | label (name : String)
  /-- An undefined label and the address of the record that names it (rule R185). -/
  | reference (name : String) (address : Word)
  /-- Nothing stands at the pc: no step of the machine reports this (`Laws/Step.lean`). -/
  | absent
  deriving DecidableEq, Repr

/-- The run status (rule R24). -/
inductive Status where
  | running
  | halted
  /-- `Faulted(kind, pc, instruction)`; before a run the pc is 0 (rule R190). -/
  | faulted (kind : FaultKind) (pc : Word) (offender : Offender)
  deriving DecidableEq, Repr

/-- The state: the four components of rule R10, and the two parameters `I` and `L` that rule R10 lists beside them and
no step changes. `N` is the length of `program`. -/
structure State where
  /-- `x[0..31]`; register 0 is read and written through `State.readReg` and `State.writeReg` only. -/
  regs : Vector Word 32
  pc : Word
  /-- `M` -/
  mem : Memory
  status : Status
  /-- `I` -/
  program : List Entry
  /-- `L` -/
  labels : LabelTable
  deriving DecidableEq, Repr

/-- Why a step that is asked for is answered by a fault. -/
inductive Fault where
  /-- Raised by `step` in a state whose status is already `Faulted`: the run was aborted by a fault of this kind, and
  no step is defined (rules R24 and R191). The fault itself is a next state (rule R190). Safe: the machine stops where
  the spec says it has stopped. -/
  | aborted (kind : FaultKind)
  deriving DecidableEq, Repr

/-- Why a step or a host's move that is asked for is refused. -/
inductive Refusal where
  /-- An instruction without a meaning, by its mnemonic: raised by no arm of `exec`. Safe. -/
  | notModelled (mnemonic : String)
  /-- Raised by `step` in a state whose status is `Halted`: the run has ended normally, and no step is defined (rules R24
  and R193: a HALT is not a fault). Safe. -/
  | afterHalt
  /-- Raised by `load` and `loadWords`: more instructions than rule R6 admits (the spec's decision D8, "a longer
  program is refused"). Safe. -/
  | programTooLong
  /-- Raised by `hostClear` while the status is `Running`: the host has no move during a run (rule R46, the spec's
  decision D23). Safe. -/
  | moveDuringRun
  deriving DecidableEq, Repr

/-- The outcome of a step, a meaning or a host's move. -/
abbrev Result := Host.Outcome State Fault Refusal

/-- The machine right after reset with no program in place (rules R25, R210 and R211). -/
def State.reset : State where
  regs := Vector.replicate 32 Config.resetRegister
  pc := Config.entryPoint
  mem := []
  status := .running
  program := []
  labels := []

end Sys2Proof.Machine
end

