-- ==== Sys2Proof/Machine/Ops.lean ====
section
/-! DEFINITION. The named operations over registers, pc, memory and status, once for all instructions: the register file
(`10_state.md` rule R12), the access primitives (`20_memory.md` rules R30 to R37), the fetch and the HALT
(`40_decode_dispatch.md` rules R90, R91 and R101), and the entry of a fault (`60_exceptions.md` rule R190). -/

namespace Sys2Proof.Machine

/-! ## Registers (rules R11 and R12) -/

/-- A read of `x[r]`; `x[0]` reads as zero whatever is stored (rule R12). -/
def State.readReg (s : State) (r : Reg) : Word :=
  if r = 0 then 0#32 else s.regs[r.val]

/-- `x[r] <- v`; a write to register 0 is discarded (rules R12 and R97). -/
def State.writeReg (s : State) (r : Reg) (v : Word) : State :=
  if r = 0 then s else { s with regs := s.regs.set r.val v }

/-! ## Program counter (rules R15 to R17) -/

/-- `pc <- t`. -/
def State.setPc (s : State) (t : Word) : State := { s with pc := t }

/-- `w32(u(pc) + 4)`: the sequential successor, and the link value of the jumps (rules R17 and R117). -/
def State.nextPc (s : State) : Word := s.pc + 4#32

/-- `pc <- w32(u(pc) + 4)` (rule R96). -/
def State.advance (s : State) : State := s.setPc s.nextPc

/-! ## Fetch and HALT (rules R90, R91 and R101) -/

/-- The fetch index `u(pc) >> 2`. -/
def State.fetchIndex (s : State) : Nat := s.pc.toNat >>> 2

/-- `I[u(pc) >> 2]`, none where the index is not below `N`. -/
def State.fetchEntry (s : State) : Option Entry := s.program[s.fetchIndex]?

/-- HALT: the status changes and nothing else (rule R91). -/
def State.halt (s : State) : State := { s with status := .halted }

/-! ## Taking a fault (rule R190)

There is no return from a fault and no handler (rule R191): `Faulted` is left by a reset only (`HostMoves.lean`). -/

/-- What the fault of the instruction at the pc is about: its record or word. -/
def State.offender (s : State) : Offender :=
  match s.fetchEntry with
  | some e => .entry e
  | none => .absent

/-- Fault entry: `status <- Faulted(K, pc, rec)`; registers, pc and memory unchanged (rule R190). -/
def State.raiseFault (s : State) (kind : FaultKind) : State :=
  { s with status := .faulted kind s.pc s.offender }

/-! ## Memory (rules R30 to R37) -/

/-- `M[a]`: an address that is not listed reads as the unwritten byte (rule R30). -/
def Memory.readByte : Memory → Nat → Byte
  | [], _ => Config.unwrittenByte
  | (k, x) :: m, a => if k = a then x else Memory.readByte m a

/-- A cell put in front of a memory, unless it holds what an unlisted address reads as. -/
def Memory.putCell (m : Memory) (a : Nat) (v : Byte) : Memory :=
  if v = Config.unwrittenByte then m else (a, v) :: m

/-- `M[a] <- v`, in canonical form. -/
def Memory.writeByte : Memory → Nat → Byte → Memory
  | [], a, v => Memory.putCell [] a v
  | (k, x) :: m, a, v =>
    if k < a then (k, x) :: Memory.writeByte m a v
    else if k = a then Memory.putCell m a v
    else Memory.putCell ((k, x) :: m) a v

/-- The `n` bytes at `a` as one value, the byte at `a` least significant (rules R32 and R36). -/
def Memory.readLE (m : Memory) : (a n : Nat) → BitVec (8 * n)
  | _, 0 => 0#0
  | a, n + 1 => Memory.readLE m (a + 1) n ++ m.readByte a

/-- `for k in 0 .. n-1: M[a + k] <- v[8*k+7 : 8*k]` (rule R37). -/
def Memory.writeLE (m : Memory) (a : Nat) : (n : Nat) → BitVec (8 * n) → Memory
  | 0, _ => m
  | n + 1, v => (Memory.writeLE m a n (v.setWidth (8 * n))).writeByte (a + n) (v.extractLsb' (8 * n) 8)

/-- The fault of an access of `n` bytes at the exact address `ea`, if any: bounds before alignment (rules R33, R34
and R189). -/
def accessFault (ea : Int) (n : Nat) : Option FaultKind :=
  if ea < 0 ∨ (Config.addressCeiling : Int) < ea then some .addressOutOfBounds
  else if ea % n ≠ 0 then some .addressMisaligned
  else none

/-- `MemRead(ea, n)` (rule R36). -/
def memRead (m : Memory) (ea : Int) (n : Nat) : Except FaultKind (BitVec (8 * n)) :=
  match accessFault ea n with
  | some kind => .error kind
  | none => .ok (m.readLE ea.toNat n)

/-- `MemWrite(ea, n, v)` (rule R37). -/
def memWrite (m : Memory) (ea : Int) (n : Nat) (v : BitVec (8 * n)) : Except FaultKind Memory :=
  match accessFault ea n with
  | some kind => .error kind
  | none => .ok (m.writeLE ea.toNat n v)

/-! ## The shared ends of the instruction rules -/

/-- `x[rd] <- v; pc <- w32(u(pc) + 4)`: the end of every ALU rule and of `lui` (rules R110, R130 and R145). -/
def writeResult (rd : Reg) (v : Word) (s : State) : Result :=
  .next (s.writeReg rd v).advance

/-- `pc <- t` of a taken transfer, a target that is not a multiple of 4 raising `AddressMisaligned` (rule R118);
`linked` is the state with the link value written. -/
def transfer (t : Word) (linked s : State) : Result :=
  if t.toNat % 4 ≠ 0 then .next (s.raiseFault .addressMisaligned) else .next (linked.setPc t)

/-! ## Placing an instruction at the fetch -/

/-- `s` with `e` as the element of the instruction sequence that the pc selects, and `Running`. An element that a
longer sequence needs before it is the word 0, which no row accepts. -/
def State.placeEntry (s : State) (e : Entry) : State :=
  let k := s.fetchIndex
  { s with
    status := .running
    program := s.program.take k ++ List.replicate (k - s.program.length) (.word 0#32) ++ e :: s.program.drop (k + 1) }

end Sys2Proof.Machine
end

