-- ==== Sys2Proof/Machine/Operands.lean ====
section
/-! DEFINITION. The operand forms: the 32-bit immediate (`44_alu_immediate.md` rule R130), the upper immediate (rule
R110), the shift amount (rules R137 and R148), the base-plus-offset address of loads and stores (`46_loads.md` rule
R160), and the computed target of `jalr` (`42_jumps.md` rule R116). -/

namespace Sys2Proof.Machine

/-- `imm32 = w32(imm)` (rule R130). -/
def imm32 (imm : Int) : Word := w32 imm

/-- `w32(imm * 4096)` (rule R110). -/
def upperImm (imm : Nat) : Word := BitVec.ofNat 32 (imm * 4096)

/-- The amount of a shift by a register: `u(b[4:0])` (rule R148). -/
def shiftAmount (b : Word) : Nat := (b.extractLsb' 0 5).toNat

/-- The amount of a shift by an immediate: `shamt mod 32`, which is `shamt` on its range (rule R137). -/
def shiftAmountImm (shamt : Nat) : Nat := shamt % 32

/-- `ea = u(x[rs1]) + imm`, the exact integer (rules R33, R160 and R170; `90_conflicts.md` C8). -/
def State.effectiveAddress (s : State) (rs1 : Reg) (imm : Int) : Int := ((s.readReg rs1).toNat : Int) + imm

/-- `{ s[31:1], 0 }` of the wrapped sum `s = w32(u(x[rs1]) + s(imm))` (rule R116). -/
def State.jalrTarget (s : State) (rs1 : Reg) (imm : Int) : Word :=
  (s.readReg rs1 + imm32 imm) &&& 0xFFFFFFFE#32

end Sys2Proof.Machine
end

