-- ==== Sys2Proof/Machine/Flags.lean ====
section
/-! DEFINITION. The hardware has no flags and no condition codes (`10_state.md` rule R18): no instruction leaves a trace
of a carry or an overflow. What stands in their place is the comparison, used and forgotten by a branch
(`43_branches.md` rules R121 to R126) and written as 0 or 1 by the `slt` family (rules R132, R133, R149 and R150). -/

namespace Sys2Proof.Machine

/-- Equality of the two patterns (rule R121). -/
def equalCond (a b : Word) : Bool := a == b

/-- `a != b`: taken exactly when equality would not be (rule R122). -/
def unequalCond (a b : Word) : Bool := !equalCond a b

/-- `s(a) < s(b)` (rules R123 and R149). -/
def lessSigned (a b : Word) : Bool := a.slt b

/-- `s(a) >= s(b)` (rule R124). -/
def notLessSigned (a b : Word) : Bool := !lessSigned a b

/-- `u(a) < u(b)` (rules R125 and R150). -/
def lessUnsigned (a b : Word) : Bool := a.ult b

/-- `u(a) >= u(b)` (rule R126). -/
def notLessUnsigned (a b : Word) : Bool := !lessUnsigned a b

/-- `s(a) < imm`, with the immediate as the integer it is (rule R132). -/
def lessSignedImm (a : Word) (imm : Int) : Bool := decide (a.toInt < imm)

/-- `1` or `0` as a 32-bit value (rules R132 and R149). -/
def boolWord (c : Bool) : Word := if c then 1#32 else 0#32

end Sys2Proof.Machine
end

