-- ==== Sys2Proof/Machine/AluImm.lean ====
section
/-! DEFINITION. The register-immediate ALU family (`44_alu_immediate.md`). Every source is read before the write (rule
R8), and no result can trap (rule R130). -/

namespace Sys2Proof.Machine

/-- `addi` (rule R131). -/
def execAddi (rd rs1 : Reg) (imm : Int) (s : State) : Result := writeResult rd (s.readReg rs1 + imm32 imm) s

/-- `slti` (rule R132). -/
def execSlti (rd rs1 : Reg) (imm : Int) (s : State) : Result :=
  writeResult rd (boolWord (lessSignedImm (s.readReg rs1) imm)) s

/-- `sltiu` (rule R133): the immediate is sign-extended, then compared unsigned. -/
def execSltiu (rd rs1 : Reg) (imm : Int) (s : State) : Result :=
  writeResult rd (boolWord (lessUnsigned (s.readReg rs1) (imm32 imm))) s

/-- `xori` (rule R134). -/
def execXori (rd rs1 : Reg) (imm : Int) (s : State) : Result := writeResult rd (s.readReg rs1 ^^^ imm32 imm) s

/-- `ori` (rule R135). -/
def execOri (rd rs1 : Reg) (imm : Int) (s : State) : Result := writeResult rd (s.readReg rs1 ||| imm32 imm) s

/-- `andi` (rule R136). -/
def execAndi (rd rs1 : Reg) (imm : Int) (s : State) : Result := writeResult rd (s.readReg rs1 &&& imm32 imm) s

/-- `slli` (rule R137). -/
def execSlli (rd rs1 : Reg) (shamt : Nat) (s : State) : Result :=
  writeResult rd (s.readReg rs1 <<< shiftAmountImm shamt) s

/-- `srli` (rule R138). -/
def execSrli (rd rs1 : Reg) (shamt : Nat) (s : State) : Result :=
  writeResult rd (s.readReg rs1 >>> shiftAmountImm shamt) s

/-- `srai` (rule R139). -/
def execSrai (rd rs1 : Reg) (shamt : Nat) (s : State) : Result :=
  writeResult rd ((s.readReg rs1).sshiftRight (shiftAmountImm shamt)) s

end Sys2Proof.Machine
end

