-- ==== Sys2Proof/Machine/AluReg.lean ====
section
/-! DEFINITION. The register-register ALU family (`45_alu_register.md`). Both sources are read before the write (rule R8),
and no result can trap (rules R145 and R156). -/

namespace Sys2Proof.Machine

/-- What all ten share (rule R145). -/
def aluReg (f : Word → Word → Word) (rd rs1 rs2 : Reg) (s : State) : Result :=
  writeResult rd (f (s.readReg rs1) (s.readReg rs2)) s

/-- `add` (rule R146). -/
def execAdd (rd rs1 rs2 : Reg) (s : State) : Result := aluReg (fun a b => a + b) rd rs1 rs2 s

/-- `sub` (rule R147): `rs1` minus `rs2`. -/
def execSub (rd rs1 rs2 : Reg) (s : State) : Result := aluReg (fun a b => a - b) rd rs1 rs2 s

/-- `sll` (rule R148). -/
def execSll (rd rs1 rs2 : Reg) (s : State) : Result := aluReg (fun a b => a <<< shiftAmount b) rd rs1 rs2 s

/-- `slt` (rule R149). -/
def execSlt (rd rs1 rs2 : Reg) (s : State) : Result := aluReg (fun a b => boolWord (lessSigned a b)) rd rs1 rs2 s

/-- `sltu` (rule R150). -/
def execSltu (rd rs1 rs2 : Reg) (s : State) : Result := aluReg (fun a b => boolWord (lessUnsigned a b)) rd rs1 rs2 s

/-- `xor` (rule R151). -/
def execXor (rd rs1 rs2 : Reg) (s : State) : Result := aluReg (fun a b => a ^^^ b) rd rs1 rs2 s

/-- `srl` (rule R152). -/
def execSrl (rd rs1 rs2 : Reg) (s : State) : Result := aluReg (fun a b => a >>> shiftAmount b) rd rs1 rs2 s

/-- `sra` (rule R153). -/
def execSra (rd rs1 rs2 : Reg) (s : State) : Result := aluReg (fun a b => a.sshiftRight (shiftAmount b)) rd rs1 rs2 s

/-- `or` (rule R154). -/
def execOr (rd rs1 rs2 : Reg) (s : State) : Result := aluReg (fun a b => a ||| b) rd rs1 rs2 s

/-- `and` (rule R155). -/
def execAnd (rd rs1 rs2 : Reg) (s : State) : Result := aluReg (fun a b => a &&& b) rd rs1 rs2 s

end Sys2Proof.Machine
end

