-- ==== Sys2Proof/Machine/Branch.lean ====
section
/-! DEFINITION. The branch family (`43_branches.md`). -/

namespace Sys2Proof.Machine

/-- What all six branches share: the transfer, which checks its target, if the condition holds, else the successor
(rules R118 and R120). -/
def branch (cond : Word → Word → Bool) (rs1 rs2 : Reg) (target : Word) (s : State) : Result :=
  if cond (s.readReg rs1) (s.readReg rs2) then transfer target s s else .next s.advance

/-- `beq` (rule R121). -/
def execBeq (rs1 rs2 : Reg) (target : Word) (s : State) : Result := branch equalCond rs1 rs2 target s

/-- `bne` (rule R122). -/
def execBne (rs1 rs2 : Reg) (target : Word) (s : State) : Result := branch unequalCond rs1 rs2 target s

/-- `blt` (rule R123). -/
def execBlt (rs1 rs2 : Reg) (target : Word) (s : State) : Result := branch lessSigned rs1 rs2 target s

/-- `bge` (rule R124). -/
def execBge (rs1 rs2 : Reg) (target : Word) (s : State) : Result := branch notLessSigned rs1 rs2 target s

/-- `bltu` (rule R125). -/
def execBltu (rs1 rs2 : Reg) (target : Word) (s : State) : Result := branch lessUnsigned rs1 rs2 target s

/-- `bgeu` (rule R126). -/
def execBgeu (rs1 rs2 : Reg) (target : Word) (s : State) : Result := branch notLessUnsigned rs1 rs2 target s

end Sys2Proof.Machine
end

