-- ==== Sys2Proof/Machine/Jump.lean ====
section
/-! DEFINITION. The jump family (`42_jumps.md`). -/

namespace Sys2Proof.Machine

/-- `jal rd, label` (rules R115, R117 and R118). -/
def execJal (rd : Reg) (target : Word) (s : State) : Result := transfer target (s.writeReg rd s.nextPc) s

/-- `jalr rd, imm(rs1)` (rules R116, R117 and R118); the target is computed from the old registers (rule R8). -/
def execJalr (rd rs1 : Reg) (imm : Int) (s : State) : Result :=
  transfer (s.jalrTarget rs1 imm) (s.writeReg rd s.nextPc) s

end Sys2Proof.Machine
end

