-- ==== Sys2Proof/Machine/Load.lean ====
section
/-! DEFINITION. The load half of the load-store family (`46_loads.md`). -/

namespace Sys2Proof.Machine

/-- What all five loads share: the width `n` and the extension are the instruction's own (rule R160). With `rd = 0` the
access is still made and can still fault. -/
def load (n : Nat) (ext : BitVec (8 * n) → Word) (rd rs1 : Reg) (imm : Int) (s : State) : Result :=
  match memRead s.mem (s.effectiveAddress rs1 imm) n with
  | .error kind => .next (s.raiseFault kind)
  | .ok v => .next (s.writeReg rd (ext v)).advance

/-- `lb` (rule R161). -/
def execLb (rd rs1 : Reg) (imm : Int) (s : State) : Result := load 1 (fun v => v.signExtend 32) rd rs1 imm s

/-- `lh` (rule R162). -/
def execLh (rd rs1 : Reg) (imm : Int) (s : State) : Result := load 2 (fun v => v.signExtend 32) rd rs1 imm s

/-- `lw` (rule R163). -/
def execLw (rd rs1 : Reg) (imm : Int) (s : State) : Result := load 4 (fun v => v) rd rs1 imm s

/-- `lbu` (rule R164). -/
def execLbu (rd rs1 : Reg) (imm : Int) (s : State) : Result := load 1 (fun v => v.setWidth 32) rd rs1 imm s

/-- `lhu` (rule R165). -/
def execLhu (rd rs1 : Reg) (imm : Int) (s : State) : Result := load 2 (fun v => v.setWidth 32) rd rs1 imm s

end Sys2Proof.Machine
end

