-- ==== Sys2Proof/Machine/Store.lean ====
section
/-! DEFINITION. The store half of the load-store family (`47_stores.md`). -/

namespace Sys2Proof.Machine

/-- What all three stores share: the low `8*n` bits of `x[rs2]` are written at the effective address (rule R170). -/
def store (n : Nat) (rs2 rs1 : Reg) (imm : Int) (s : State) : Result :=
  match memWrite s.mem (s.effectiveAddress rs1 imm) n ((s.readReg rs2).setWidth (8 * n)) with
  | .error kind => .next (s.raiseFault kind)
  | .ok m => .next ({ s with mem := m } : State).advance

/-- `sb` (rule R171). -/
def execSb (rs2 rs1 : Reg) (imm : Int) (s : State) : Result := store 1 rs2 rs1 imm s

/-- `sh` (rule R172). -/
def execSh (rs2 rs1 : Reg) (imm : Int) (s : State) : Result := store 2 rs2 rs1 imm s

/-- `sw` (rule R173). -/
def execSw (rs2 rs1 : Reg) (imm : Int) (s : State) : Result := store 4 rs2 rs1 imm s

end Sys2Proof.Machine
end

