-- ==== Sys2Proof/Machine/UpperImm.lean ====
section
/-! DEFINITION. The upper-immediate family (`41_upper_immediate.md`). -/

namespace Sys2Proof.Machine

/-- `lui rd, imm` (rule R110). -/
def execLui (rd : Reg) (imm : Nat) (s : State) : Result := writeResult rd (upperImm imm) s

end Sys2Proof.Machine
end

