-- ==== Sys2Proof/Machine/Step.lean ====
section
/-! DEFINITION. One step of the engine (`40_decode_dispatch.md` rule R90), and the placing of an instruction word at the
fetch. -/

namespace Sys2Proof.Machine

/-- One step (rule R90): HALT where the pc selects nothing, else fetch, decode and execute; a fault of the decode is
taken as a fault of the execution is. No step is defined from `Halted` and `Faulted` (rule R24). -/
def step (s : State) : Host.Outcome State Fault Refusal :=
  match s.status with
  | .running =>
    match s.fetchEntry with
    | none => .next s.halt
    | some e =>
      match decodeEntry s.labels s.pc e with
      | .error kind => .next (s.raiseFault kind)
      | .ok i => exec i s
  | .halted => .refused .afterHalt
  | .faulted kind _ _ => .fault (.aborted kind)

/-- `s` with the instruction word `w` of `nbits` bits where the next step fetches, and `Running`. -/
def State.withFetchWord (s : State) (nbits w : Nat) : State := s.placeEntry (.word (tableWord nbits w))

end Sys2Proof.Machine
end

