-- ==== Sys2Proof/Machine/Loader.lean ====
section
/-! DEFINITION. How a program comes into the machine: the resolver (`30_encoding.md` rules R60 to R63), the label check
before the first step (rules R67 and R185), and the host's load at either level (`60_exceptions.md` rule R204). A
resolution error aborts before any execution begins: the state is the reset state with the status `Faulted` (rule
R190). -/

namespace Sys2Proof.Machine

/-- A resolution error: its kind and what it is about (rules R182, R183 and R185). -/
structure LoadError where
  kind : FaultKind
  offender : Offender
  deriving DecidableEq, Repr

/-- The address `4*k` of `I[k]` (rule R63). -/
def addressOf (k : Nat) : Word := BitVec.ofNat 32 (4 * k)

/-- The name a label line declares: a single token ending in `:`, without it (rules R61 and R62). -/
def labelName : List String → Option String
  | [token] =>
    match token.toList.reverse with
    | ':' :: cs => some (String.ofList cs.reverse)
    | _ => none
  | _ => none

/-- One line (rules R61 and R62): a label bound to the next instruction's address, an instruction record, or a
resolution error. -/
def resolveLine (p : Program) (line : List String) : Except LoadError Program :=
  match labelName line with
  | some name =>
    if name = "" then .error ⟨.syntaxError, .line line⟩
    else if (p.labels.address? name).isSome then .error ⟨.duplicateLabel, .label name⟩
    else .ok { p with labels := p.labels ++ [(name, addressOf p.entries.length)] }
  | none =>
    match line with
    | [op, a, b] => .ok { p with entries := p.entries ++ [.record ⟨op, [a, b]⟩] }
    | [op, a, b, c] => .ok { p with entries := p.entries ++ [.record ⟨op, [a, b, c]⟩] }
    | _ => .error ⟨.syntaxError, .line line⟩

/-- The lines in order, from the state of the resolver so far; the first offending line is reported (rule R189). -/
def resolveFrom (p : Program) : List (List String) → Except LoadError Program
  | [] => .ok p
  | line :: lines =>
    match resolveLine p line with
    | .error e => .error e
    | .ok q => resolveFrom q lines

/-- A label with no following instruction, found at the end of input (rules R62 and R189). -/
def trailingLabel (p : Program) : Option LoadError :=
  (p.labels.find? fun row => row.2 == addressOf p.entries.length).map fun row => ⟨.syntaxError, .label row.1⟩

/-- The first record, in sequence order from `I[k]`, that refers to a label the table does not hold (rules R67 and R185). -/
def unresolvedFrom (table : LabelTable) : Nat → List Entry → Option LoadError
  | _, [] => none
  | k, .word _ :: es => unresolvedFrom table (k + 1) es
  | k, .record r :: es =>
    match r.labelRef with
    | none => unresolvedFrom table (k + 1) es
    | some name =>
      match table.address? name with
      | some _ => unresolvedFrom table (k + 1) es
      | none => some ⟨.unresolvedLabel, .reference name (addressOf k)⟩

/-- The resolver on the whole input (rules R61 to R63 and R189). -/
def resolve (lines : List (List String)) : Except LoadError Program := resolveFrom ⟨[], []⟩ lines

/-- The checks at the end of input: a trailing label, then the label references (rule R189). -/
def endCheck (p : Program) : Option LoadError :=
  (trailingLabel p).or (unresolvedFrom p.labels 0 p.entries)

/-- The reset state with a program in place (rules R210 and R212). -/
def State.boot (p : Program) : State := { State.reset with program := p.entries, labels := p.labels }

/-- The reset state with the status of a fault raised before the run (rule R190). -/
def State.failedLoad (e : LoadError) : State := { State.reset with status := .faulted e.kind 0#32 e.offender }

/-- The host loads tokenized lines (rule R204). -/
def loadLines (lines : List (List String)) : Result :=
  match resolve lines with
  | .error e => .next (State.failedLoad e)
  | .ok p =>
    if Config.maxProgramLength < p.entries.length then .refused .programTooLong
    else
      match endCheck p with
      | some e => .next (State.failedLoad e)
      | none => .next (State.boot p)

/-- The host loads the words of `I`, at the binary level (rules R70 and R204). -/
def loadWords (ws : List Word) : Result :=
  if Config.maxProgramLength < ws.length then .refused .programTooLong
  else .next (State.boot ⟨ws.map .word, []⟩)

end Sys2Proof.Machine
end

