-- ==== Sys2Proof/Machine/HostMoves.lean ====
section
/-! DEFINITION. What a host may do besides loading (`60_exceptions.md` rule R204): reset, run on a step budget, clear the
memory, and observe. No move writes a register, the pc or a memory byte during a run. -/

namespace Sys2Proof.Machine

/-- Reset (rules R25 and R210): allowed in any status, and the parameters `I` and `L` stay in place. -/
def hostReset (s : State) : State := { State.reset with program := s.program, labels := s.labels }

/-- `clear()`: every byte of `M` becomes 0; no move of the host during a run (rule R46). -/
def hostClear (s : State) : Result :=
  if s.status = .running then .refused .moveDuringRun else .next { s with mem := [] }

/-- The run on a step budget (rules R99 and R204): it ends where the status leaves `Running`; an exhausted budget leaves
the state reached, still `Running`. -/
def runFuel : Nat → State → State
  | 0, s => s
  | fuel + 1, s =>
    match step s with
    | .next t => runFuel fuel t
    | .fault _ => s
    | .refused _ => s

/-- A memory byte as the host observes it (rule R204); a register, the pc and the status are `readReg`, `pc`, `status`. -/
def State.observeByte (s : State) (a : Nat) : Byte := s.mem.readByte a

end Sys2Proof.Machine
end

