-- ==== Sys2Proof/Safety.lean ====
section
/-! DEFINITION. What the statements are about: the invariant of the machine, the end of a run (`70_reset_and_hazards.md`
rule R215), and what it means that an instruction changes one register, some bytes of memory, or nothing. -/

namespace Sys2Proof.Machine

/-- The invariant every step keeps. -/
structure State.Inv (s : State) : Prop where
  /-- The memory is in canonical form. -/
  memory : s.mem.wf
  /-- Register 0 holds zero (rules R12 and R97). -/
  zero : s.regs[0] = 0#32
  /-- The pc is a multiple of 4 (rule R17). -/
  aligned : s.pc.toNat % 4 = 0
  /-- A program the engine runs is in place (rules R6 and R63). -/
  program : Program.wf ⟨s.program, s.labels⟩ = true
  /-- A HALT leaves the pc where nothing is fetched (rule R91). -/
  halted : s.status = .halted → s.fetchEntry = none
  /-- A fault leaves the pc at the instruction it reports (rule R190). -/
  faulted : ∀ kind pc offender, s.status = .faulted kind pc offender → pc = s.pc

/-- `I` and `L` are the same (rules R10, R22 and R44). -/
def State.SameProgram (s t : State) : Prop := t.program = s.program ∧ t.labels = s.labels

/-- Every register reads as before. -/
def State.SameRegs (s t : State) : Prop := ∀ r : Reg, t.readReg r = s.readReg r

/-- Every byte of memory reads as before. -/
def State.SameMem (s t : State) : Prop := ∀ a : Nat, t.mem.readByte a = s.mem.readByte a

/-- Register `rd` reads as `v`, or as zero if it is register 0, and every other register reads as before (rule R12). -/
def State.WritesReg (s t : State) (rd : Reg) (v : Word) : Prop :=
  t.readReg rd = (if rd = 0 then 0#32 else v) ∧ ∀ r : Reg, r ≠ rd → t.readReg r = s.readReg r

/-- The `n` bytes from `a` read as `v`, least significant first, and every other byte reads as before (rules R32 and R37). -/
def State.WritesBytes (s t : State) (a n : Nat) (v : Word) : Prop :=
  (∀ k, k < n → t.mem.readByte (a + k) = v.extractLsb' (8 * k) 8) ∧
    ∀ b : Nat, b < a ∨ a + n ≤ b → t.mem.readByte b = s.mem.readByte b

/-- A fault of this kind is taken: the status holds the kind, the pc and the record or word at the pc, and nothing else
has changed (rule R190). -/
def State.Faults (s t : State) (kind : FaultKind) : Prop :=
  t.status = .faulted kind s.pc s.offender ∧ s.SameRegs t ∧ t.pc = s.pc ∧ s.SameMem t ∧ s.SameProgram t

/-! ## What it means that an instruction completes, or takes a fault -/

/-- `i` completes: `rd` receives `v`, the pc advances by 4, and nothing else changes. -/
def ExecWrites (i : Instr) (s : State) (rd : Reg) (v : Word) : Prop :=
  ∃ t, exec i s = .next t ∧ s.WritesReg t rd v ∧ t.pc = w32 (s.pc.toNat + 4) ∧ s.SameMem t ∧ t.status = s.status ∧
    s.SameProgram t

/-- `i` completes: `rd` receives the link value `w32(u(pc) + 4)` (rule R117), the pc is the target, and nothing else
changes. -/
def ExecLinks (i : Instr) (s : State) (rd : Reg) (target : Word) : Prop :=
  ∃ t, exec i s = .next t ∧ s.WritesReg t rd (w32 (s.pc.toNat + 4)) ∧ t.pc = target ∧ s.SameMem t ∧
    t.status = s.status ∧ s.SameProgram t

/-- `i` completes: the pc is the target, and nothing else changes. -/
def ExecMoves (i : Instr) (s : State) (target : Word) : Prop :=
  ∃ t, exec i s = .next t ∧ s.SameRegs t ∧ t.pc = target ∧ s.SameMem t ∧ t.status = s.status ∧ s.SameProgram t

/-- `i` completes: the `n` bytes from `a` receive the low bytes of `v`, the pc advances by 4, and nothing else changes. -/
def ExecStores (i : Instr) (s : State) (a n : Nat) (v : Word) : Prop :=
  ∃ t, exec i s = .next t ∧ s.WritesBytes t a n v ∧ s.SameRegs t ∧ t.pc = w32 (s.pc.toNat + 4) ∧
    t.status = s.status ∧ s.SameProgram t

/-- `i` takes a fault of this kind. -/
def ExecFaults (i : Instr) (s : State) (kind : FaultKind) : Prop := ∃ t, exec i s = .next t ∧ s.Faults t kind

/-! ## The end of a run -/

/-- A run has ended normally (rule R215). -/
def State.EndedNormally (s : State) : Prop := s.status = .halted

/-- A run has ended abnormally (rule R215). -/
def State.EndedAbnormally (s : State) : Prop := ∃ kind pc offender, s.status = .faulted kind pc offender

/-- A safe run: from `s` it halts within some budget of steps, never by a fault. -/
def State.SafeRun (s : State) : Prop := ∃ fuel, (runFuel fuel s).EndedNormally

end Sys2Proof.Machine
end

