-- ==== Sys2Proof/Certificates/Slice0/Obligations.lean ====
section
/-! DEFINITION. The statements about the machine, for the provers. The namespace `Sys2Proof.Spec` says the spec's own
formulas once more, over integers and lists and apart from the model's definitions, so that a statement compares two
texts: the model's and the rule's. -/

namespace Sys2Proof.Spec

open Sys2Proof.Machine

/-! ## Fields and immediates of a word, as integers (rules R7, R71 and R72) -/

/-- `u(w[hi:lo])` (rule R7). -/
def slice (w : Word) (hi lo : Nat) : Nat := w.toNat / 2 ^ lo % 2 ^ (hi - lo + 1)

/-- The two's-complement value of an `n`-bit pattern (rule R7). -/
def signed (n v : Nat) : Int := if v < 2 ^ (n - 1) then (v : Int) else (v : Int) - 2 ^ n

/-- A 5-bit field as a register index. -/
def reg (n : Nat) : Reg := Fin.ofNat 32 n

/-- `rd = w[11:7]` (rule R71). -/
def rd (w : Word) : Reg := reg (slice w 11 7)

/-- `rs1 = w[19:15]` (rule R71). -/
def rs1 (w : Word) : Reg := reg (slice w 19 15)

/-- `rs2 = w[24:20]` (rule R71). -/
def rs2 (w : Word) : Reg := reg (slice w 24 20)

/-- `s(immI(w))` (rule R72). -/
def immI (w : Word) : Int := signed 12 (slice w 31 20)

/-- `s(immS(w))` (rule R72). -/
def immS (w : Word) : Int := signed 12 (slice w 31 25 * 32 + slice w 11 7)

/-- `s(immB(w))` (rule R72). -/
def immB (w : Word) : Int :=
  signed 13 (slice w 31 31 * 4096 + slice w 7 7 * 2048 + slice w 30 25 * 32 + slice w 11 8 * 2)

/-- `s(immJ(w))` (rule R72). -/
def immJ (w : Word) : Int :=
  signed 21 (slice w 31 31 * 1048576 + slice w 19 12 * 4096 + slice w 20 20 * 2048 + slice w 30 21 * 2)

/-- Every word with these bits under the mask, at every address, decodes to this record (rules R73 and R74). -/
def Decodes (mask pattern : Word) (mk : Word → Word → Instr) : Prop :=
  ∀ w pc : Word, w &&& mask = pattern → decodeWord w pc = .ok (mk w pc)

/-- The record of shapes `I`, `JR` and `L` a word holds (rule R74). -/
def recordI (mk : Reg → Reg → Int → Instr) (w _pc : Word) : Instr := mk (rd w) (rs1 w) (immI w)

/-- The record of shape `S` a word holds (rule R74). -/
def recordS (mk : Reg → Reg → Int → Instr) (w _pc : Word) : Instr := mk (rs2 w) (rs1 w) (immS w)

/-- The record of shape `B` a word holds (rule R74). -/
def recordB (mk : Reg → Reg → Word → Instr) (w pc : Word) : Instr := mk (rs1 w) (rs2 w) (w32 (pc.toNat + immB w))

/-- The record of shape `SH` a word holds (rule R74). -/
def recordSH (mk : Reg → Reg → Nat → Instr) (w _pc : Word) : Instr := mk (rd w) (rs1 w) (slice w 24 20)

/-- The record of shape `R` a word holds (rule R74). -/
def recordR (mk : Reg → Reg → Reg → Instr) (w _pc : Word) : Instr := mk (rd w) (rs1 w) (rs2 w)

/-! ## The instruction rules -/

/-- A register-immediate rule (rule R130): `x[rd] <- f(x[rs1], imm)`. -/
def WritesImm (mk : Reg → Reg → Int → Instr) (f : Word → Int → Word) : Prop :=
  ∀ (rd rs1 : Reg) (imm : Int) (s : State), ExecWrites (mk rd rs1 imm) s rd (f (s.readReg rs1) imm)

/-- A shift by an immediate (rules R130 and R137): `x[rd] <- f(x[rs1], shamt)`. -/
def WritesShift (mk : Reg → Reg → Nat → Instr) (f : Word → Nat → Word) : Prop :=
  ∀ (rd rs1 : Reg) (shamt : Nat) (s : State), shamt ≤ 31 → ExecWrites (mk rd rs1 shamt) s rd (f (s.readReg rs1) shamt)

/-- A register-register rule (rule R145): `x[rd] <- f(x[rs1], x[rs2])`. -/
def WritesReg (mk : Reg → Reg → Reg → Instr) (f : Word → Word → Word) : Prop :=
  ∀ (rd rs1 rs2 : Reg) (s : State), ExecWrites (mk rd rs1 rs2) s rd (f (s.readReg rs1) (s.readReg rs2))

/-- A branch rule (rule R120): the target if the condition holds, checked for alignment then only, else the successor. -/
def Branches (mk : Reg → Reg → Word → Instr) (cond : Word → Word → Prop) : Prop :=
  ∀ (rs1 rs2 : Reg) (target : Word) (s : State),
    (cond (s.readReg rs1) (s.readReg rs2) → target.toNat % 4 = 0 → ExecMoves (mk rs1 rs2 target) s target) ∧
    (cond (s.readReg rs1) (s.readReg rs2) → target.toNat % 4 ≠ 0 →
      ExecFaults (mk rs1 rs2 target) s .addressMisaligned) ∧
    (¬ cond (s.readReg rs1) (s.readReg rs2) → ExecMoves (mk rs1 rs2 target) s (w32 (s.pc.toNat + 4)))

/-- `ea = u(x[rs1]) + imm`, the exact integer (rules R33 and R160). -/
def ea (s : State) (rs1 : Reg) (imm : Int) : Int := (s.readReg rs1).toNat + imm

/-- The address is inside the data space (rule R33). -/
abbrev InBounds (ea : Int) : Prop := 0 ≤ ea ∧ ea ≤ 0xFFFFFFFF

/-- A load rule (rule R160): `x[rd] <- w32(value)` of the bytes from the effective address, or a bounds fault. -/
def Loads (mk : Reg → Reg → Int → Instr) (n : Nat) (value : (Nat → Nat) → Nat → Int) : Prop :=
  ∀ (rd rs1 : Reg) (imm : Int) (s : State),
    (InBounds (ea s rs1 imm) → ea s rs1 imm % n = 0 →
      ExecWrites (mk rd rs1 imm) s rd (w32 (value (fun a => (s.mem.readByte a).toNat) (ea s rs1 imm).toNat))) ∧
    (¬ InBounds (ea s rs1 imm) → ExecFaults (mk rd rs1 imm) s .addressOutOfBounds)

/-- A store rule (rule R170): the low `n` bytes of `x[rs2]` written from the effective address, or a bounds fault. -/
def Stores (mk : Reg → Reg → Int → Instr) (n : Nat) : Prop :=
  ∀ (rs2 rs1 : Reg) (imm : Int) (s : State),
    (s.mem.wf → InBounds (ea s rs1 imm) → ea s rs1 imm % n = 0 →
      ExecStores (mk rs2 rs1 imm) s (ea s rs1 imm).toNat n (s.readReg rs2)) ∧
    (¬ InBounds (ea s rs1 imm) → ExecFaults (mk rs2 rs1 imm) s .addressOutOfBounds)

/-- The alignment of a data access (rule R34): inside the data space, a misaligned address faults. -/
def NeedsAlignment (mk : Reg → Reg → Int → Instr) (n : Nat) : Prop :=
  ∀ (r rs1 : Reg) (imm : Int) (s : State), InBounds (ea s rs1 imm) → ea s rs1 imm % n ≠ 0 →
    ExecFaults (mk r rs1 imm) s .addressMisaligned

/-- The target of `jalr`: the wrapped sum with its low bit cleared (rule R116). -/
def jalrTarget (s : State) (rs1 : Reg) (imm : Int) : Word :=
  BitVec.ofNat 32 ((w32 ((s.readReg rs1).toNat + imm)).toNat / 2 * 2)

/-- Where a transfer goes: the target of a jump, the target of a branch whose condition holds, none otherwise. -/
def transferTarget (s : State) : Instr → Option Word
  | .jal _ target => some target
  | .jalr _ rs1 imm => some (jalrTarget s rs1 imm)
  | .beq a b target => if s.readReg a = s.readReg b then some target else none
  | .bne a b target => if s.readReg a ≠ s.readReg b then some target else none
  | .blt a b target => if (s.readReg a).toInt < (s.readReg b).toInt then some target else none
  | .bge a b target => if (s.readReg a).toInt ≥ (s.readReg b).toInt then some target else none
  | .bltu a b target => if (s.readReg a).toNat < (s.readReg b).toNat then some target else none
  | .bgeu a b target => if (s.readReg a).toNat ≥ (s.readReg b).toNat then some target else none
  | _ => none

/-- The six branches. -/
def isBranch : Instr → Bool
  | .beq _ _ _ | .bne _ _ _ | .blt _ _ _ | .bge _ _ _ | .bltu _ _ _ | .bgeu _ _ _ => true
  | _ => false

/-- The three stores. -/
def isStore : Instr → Bool
  | .sb _ _ _ | .sh _ _ _ | .sw _ _ _ => true
  | _ => false

/-- The register an instruction writes (the table of rule R14). -/
def dest : Instr → Option Reg
  | .lui rd _ | .jal rd _ | .jalr rd _ _ => some rd
  | .beq _ _ _ | .bne _ _ _ | .blt _ _ _ | .bge _ _ _ | .bltu _ _ _ | .bgeu _ _ _ => none
  | .lb rd _ _ | .lh rd _ _ | .lw rd _ _ | .lbu rd _ _ | .lhu rd _ _ => some rd
  | .sb _ _ _ | .sh _ _ _ | .sw _ _ _ => none
  | .addi rd _ _ | .slti rd _ _ | .sltiu rd _ _ | .xori rd _ _ | .ori rd _ _ | .andi rd _ _ => some rd
  | .slli rd _ _ | .srli rd _ _ | .srai rd _ _ => some rd
  | .add rd _ _ | .sub rd _ _ | .sll rd _ _ | .slt rd _ _ | .sltu rd _ _ => some rd
  | .xor rd _ _ | .srl rd _ _ | .sra rd _ _ | .or rd _ _ | .and rd _ _ => some rd

/-- The registers an instruction reads (the table of rule R14). -/
def sources : Instr → List Reg
  | .lui _ _ | .jal _ _ => []
  | .jalr _ rs1 _ => [rs1]
  | .beq a b _ | .bne a b _ | .blt a b _ | .bge a b _ | .bltu a b _ | .bgeu a b _ => [a, b]
  | .lb _ rs1 _ | .lh _ rs1 _ | .lw _ rs1 _ | .lbu _ rs1 _ | .lhu _ rs1 _ => [rs1]
  | .sb rs2 rs1 _ | .sh rs2 rs1 _ | .sw rs2 rs1 _ => [rs1, rs2]
  | .addi _ rs1 _ | .slti _ rs1 _ | .sltiu _ rs1 _ | .xori _ rs1 _ | .ori _ rs1 _ | .andi _ rs1 _ => [rs1]
  | .slli _ rs1 _ | .srli _ rs1 _ | .srai _ rs1 _ => [rs1]
  | .add _ a b | .sub _ a b | .sll _ a b | .slt _ a b | .sltu _ a b => [a, b]
  | .xor _ a b | .srl _ a b | .sra _ a b | .or _ a b | .and _ a b => [a, b]

/-! ## Names, literals and records (rules R13, R65, R66 and R92) -/

/-- The names of the registers, by index: literal form and alias (the table of rule R13). -/
def names : List (Nat × String × String) :=
  [(0, "x0", "zero"), (1, "x1", "ra"), (2, "x2", "sp"), (3, "x3", "gp"), (4, "x4", "tp"), (5, "x5", "t0")] ++
  [(6, "x6", "t1"), (7, "x7", "t2"), (8, "x8", "s0"), (9, "x9", "s1"), (10, "x10", "a0"), (11, "x11", "a1")] ++
  [(12, "x12", "a2"), (13, "x13", "a3"), (14, "x14", "a4"), (15, "x15", "a5"), (16, "x16", "a6"), (17, "x17", "a7")] ++
  [(18, "x18", "s2"), (19, "x19", "s3"), (20, "x20", "s4"), (21, "x21", "s5"), (22, "x22", "s6"), (23, "x23", "s7")] ++
  [(24, "x24", "s8"), (25, "x25", "s9"), (26, "x26", "s10"), (27, "x27", "s11"), (28, "x28", "t3"), (29, "x29", "t4")] ++
  [(30, "x30", "t5"), (31, "x31", "t6")]

/-- The name names the register (rule R13). -/
def Names (name : String) (r : Reg) : Prop := ∃ row ∈ names, row.1 = r.val ∧ (name = row.2.1 ∨ name = row.2.2)

/-- The digit of value `d` in a base, in either case (the model's reading of `hexdigit`, log entry 10). -/
def Digit (base : Nat) (c : Char) (d : Nat) : Prop :=
  d < base ∧ (['0', '1', '2', '3', '4', '5', '6', '7', '8', '9', 'a', 'b', 'c', 'd', 'e', 'f'][d]? = some c ∨
    ['0', '1', '2', '3', '4', '5', '6', '7', '8', '9', 'A', 'B', 'C', 'D', 'E', 'F'][d]? = some c)

/-- One or more digits of a base, and their value. -/
inductive Digits (base : Nat) : List Char → Nat → Prop where
  | one (c : Char) (d : Nat) (h : Digit base c d) : Digits base [c] d
  | more (cs : List Char) (n : Nat) (c : Char) (d : Nat) (hs : Digits base cs n) (h : Digit base c d) :
      Digits base (cs ++ [c]) (n * base + d)

/-- `magnitude` of rule R66. -/
inductive Magnitude : List Char → Nat → Prop where
  | zero : Magnitude ['0'] 0
  | hex (p : Char) (cs : List Char) (n : Nat) (hp : p = 'x' ∨ p = 'X') (h : Digits 16 cs n) : Magnitude ('0' :: p :: cs) n
  | bin (p : Char) (cs : List Char) (n : Nat) (hp : p = 'b' ∨ p = 'B') (h : Digits 2 cs n) : Magnitude ('0' :: p :: cs) n
  | oct (p : Char) (cs : List Char) (n : Nat) (hp : p = 'o' ∨ p = 'O') (h : Digits 8 cs n) : Magnitude ('0' :: p :: cs) n
  | dec (c : Char) (cs : List Char) (n : Nat) (hc : c ≠ '0') (h : Digits 10 (c :: cs) n) : Magnitude (c :: cs) n

/-- `literal` of rule R66. -/
inductive Literal : List Char → Int → Prop where
  | plain (cs : List Char) (n : Nat) (h : Magnitude cs n) : Literal cs n
  | plus (cs : List Char) (n : Nat) (h : Magnitude cs n) : Literal ('+' :: cs) n
  | minus (cs : List Char) (n : Nat) (h : Magnitude cs n) : Literal ('-' :: cs) (-(n : Int))

/-- A slot takes exactly the literals in its range, and every other token is an `ImmediateParseError` (rule R66). -/
def SlotTakes (slot : List Char → Except FaultKind Int) (lo hi : Int) : Prop :=
  ∀ cs, (∀ v, Literal cs v → lo ≤ v → v ≤ hi → slot cs = .ok v) ∧
    ((¬ ∃ v, Literal cs v ∧ lo ≤ v ∧ v ≤ hi) → slot cs = .error .immediateParseError)

/-- The mnemonics of rule R1. -/
def mnemonics : List String :=
  ["lui", "jal", "jalr", "beq", "bne", "blt", "bge", "bltu", "bgeu", "lb", "lh", "lw", "lbu", "lhu"] ++
  ["sb", "sh", "sw", "addi", "slti", "sltiu", "xori", "ori", "andi", "slli", "srli", "srai"] ++
  ["add", "sub", "sll", "slt", "sltu", "xor", "srl", "sra", "or", "and"]

/-- A record with two operands decodes by this rule, and with any other number of operands is a `SyntaxError`. -/
def Record2 (op : String) (f : LabelTable → String → String → Except FaultKind Instr) : Prop :=
  ∀ table, (∀ a b, decodeRecord table ⟨op, [a, b]⟩ = f table a b) ∧
    ∀ args, args.length ≠ 2 → decodeRecord table ⟨op, args⟩ = .error .syntaxError

/-- A record with three operands decodes by this rule, and with any other number of operands is a `SyntaxError`. -/
def Record3 (op : String) (f : LabelTable → String → String → String → Except FaultKind Instr) : Prop :=
  ∀ table, (∀ a b c, decodeRecord table ⟨op, [a, b, c]⟩ = f table a b c) ∧
    ∀ args, args.length ≠ 3 → decodeRecord table ⟨op, args⟩ = .error .syntaxError

/-- Shape `B`: `rs1`, `rs2`, then the label (rules R53 and R92). -/
def RecordB (op : String) (mk : Reg → Reg → Word → Instr) : Prop :=
  Record3 op fun table a b c => do return mk (← regSlot a) (← regSlot b) (← targetSlot table c)

/-- Shapes `JR`, `L` and `S`: a register, then `imm(rs1)` (rules R53 and R92). -/
def RecordBase (op : String) (mk : Reg → Reg → Int → Instr) : Prop :=
  Record2 op fun _ a b => do
    let r ← regSlot a
    let p ← baseSlot b
    return mk r p.2 p.1

/-- Shape `I`: `rd`, `rs1`, then the immediate (rules R53 and R92). -/
def RecordI (op : String) (mk : Reg → Reg → Int → Instr) : Prop :=
  Record3 op fun _ a b c => do return mk (← regSlot a) (← regSlot b) (← immSlot (-2048) 2047 c.toList)

/-- Shape `SH`: `rd`, `rs1`, then the shift amount (rules R53 and R92). -/
def RecordSH (op : String) (mk : Reg → Reg → Nat → Instr) : Prop :=
  Record3 op fun _ a b c => do return mk (← regSlot a) (← regSlot b) (← immSlot 0 31 c.toList).toNat

/-- Shape `R`: `rd`, `rs1`, `rs2` (rules R53 and R92). -/
def RecordR (op : String) (mk : Reg → Reg → Reg → Instr) : Prop :=
  Record3 op fun _ a b c => do return mk (← regSlot a) (← regSlot b) (← regSlot c)

/-! ## Source lines (rules R61 to R63) -/

/-- A label line: one token, the name and a final `:` (rules R61 and R62). -/
def LabelLine (line : List String) (name : String) : Prop :=
  ∃ token, line = [token] ∧ token.toList = name.toList ++ [':']

/-- An instruction line: 3 or 4 tokens (rule R61). -/
def InstrLine (line : List String) : Prop := line.length = 3 ∨ line.length = 4

/-- The record of an instruction line: first token the opcode, the others the operands in source order (rule R61). -/
def lineRecord : List String → Option Entry
  | [op, a, b] => some (.record ⟨op, [a, b]⟩)
  | [op, a, b, c] => some (.record ⟨op, [a, b, c]⟩)
  | _ => none

/-- The instruction sequence of the lines (rule R63). -/
def lineEntries (lines : List (List String)) : List Entry := lines.filterMap lineRecord

/-- Every register, the pc and every byte of memory hold their reset value (rule R25). -/
def AtReset (s : State) : Prop := (∀ r, s.readReg r = 0#32) ∧ s.pc = 0#32 ∧ ∀ a, s.mem.readByte a = 0#8

/-- The label name a record refers to, by the operand count and the target slot of its opcode (rule R185). -/
def refersTo : SourceRecord → Option String
  | ⟨op, [_, name]⟩ => if op = "jal" then some name else none
  | ⟨op, [_, _, name]⟩ => if op ∈ ["beq", "bne", "blt", "bge", "bltu", "bgeu"] then some name else none
  | _ => none

end Sys2Proof.Spec

open Sys2Proof Sys2Proof.Machine

/-! # Reset, the step and the run -/

/-- Rules R25 and R210: a reset, from any state, makes every register, the pc and every byte zero and the status
`Running`, and leaves `I` and `L` in place. -/
def Obligations.ResetGivesTheResetState : Prop :=
  ∀ s : State, (∀ r, (hostReset s).readReg r = 0#32) ∧ (hostReset s).pc = 0#32 ∧
    (∀ a, (hostReset s).mem.readByte a = 0#8) ∧ (hostReset s).status = .running ∧ s.SameProgram (hostReset s)

/-- Rule R211: the first step after a reset fetches `I[0]`, or HALTs if `N = 0`. -/
def Obligations.FirstStepFetchesTheFirstInstruction : Prop :=
  ∀ s : State, (hostReset s).fetchEntry = s.program[0]? ∧
    (s.program.length = 0 → ∃ t, step (hostReset s) = .next t ∧ t.status = .halted)

/-- The invariant holds right after reset. -/
def Obligations.ResetMeetsTheInvariant : Prop := State.reset.Inv

/-- The invariant holds after a load that answers a state, at either level (rules R6, R63 and R212 for a program that
loads, R190 for a load that fails). The canonical form of the memory is the model's (log entry 5); that a failed load
leaves no program in place and the pc 0 in the status is the model's choice (log entry 11). -/
def Obligations.LoadedStateMeetsTheInvariant : Prop :=
  (∀ lines s, loadLines lines = .next s → s.Inv) ∧ ∀ ws s, loadWords ws = .next s → s.Inv

/-- Every step keeps the invariant: canonical memory, register 0 zero, the pc a multiple of 4, a program in place, and
a pc that a HALT or a fault leaves where it was (rules R12, R17, R24, R91 and R190). The canonical form is the model's
(log entry 5). -/
def Obligations.StepKeepsTheInvariant : Prop := ∀ s t : State, s.Inv → step s = .next t → t.Inv

/-- Rule R90: a step from `Running` executes the instruction that the record or word at `I[u(pc) >> 2]` decodes to. -/
def Obligations.StepRunsTheDecodedInstruction : Prop :=
  ∀ (s : State) (e : Entry) (i : Instr), s.status = .running → s.program[s.pc.toNat / 4]? = some e →
    decodeEntry s.labels s.pc e = .ok i → step s = exec i s

/-- A fault of the decode is taken when the pc reaches the record or word: only the status changes, to the kind, the pc
and that record or word (rules R90, R184, R186 and R188). -/
def Obligations.StepTakesTheDecodeFault : Prop :=
  ∀ (s : State) (e : Entry) (kind : FaultKind), s.status = .running → s.program[s.pc.toNat / 4]? = some e →
    decodeEntry s.labels s.pc e = .error kind →
    ∃ t, step s = .next t ∧ t.status = .faulted kind s.pc (.entry e) ∧ s.SameRegs t ∧ t.pc = s.pc ∧ s.SameMem t ∧
      s.SameProgram t

/-- Rule R91: a step HALTs exactly when the fetch index is out of range, and then only the status changes. -/
def Obligations.HaltExactlyOutOfRange : Prop :=
  ∀ s : State, s.status = .running →
    (s.program.length ≤ s.pc.toNat / 4 →
      ∃ t, step s = .next t ∧ t.status = .halted ∧ s.SameRegs t ∧ t.pc = s.pc ∧ s.SameMem t ∧ s.SameProgram t) ∧
    ∀ t, step s = .next t → t.status = .halted → s.program.length ≤ s.pc.toNat / 4

/-- From `Running` a step always answers a next state, whatever is fetched. -/
def Obligations.RunningStepIsDefined : Prop := ∀ s : State, s.status = .running → ∃ t, step s = .next t

/-- No step is defined from `Halted` and from `Faulted` (rule R24); the two names of the stops are the model's
(log entry 1). -/
def Obligations.NoStepFromATerminalStatus : Prop :=
  ∀ s : State, (s.status = .halted → step s = .refused .afterHalt) ∧
    ∀ kind pc offender, s.status = .faulted kind pc offender → step s = .fault (.aborted kind)

/-- A step that ends in `Faulted` changes the status only, to the kind, the pc and the record or word at the pc; a fault
raised before the run leaves the reset state (rule R190). That the status then holds the pc 0, where rule R190 says
"absent or 0", and that no program is left in place is the model's choice (log entry 11). -/
def Obligations.FaultsArePrecise : Prop :=
  (∀ s t kind pc offender, step s = .next t → t.status = .faulted kind pc offender →
    pc = s.pc ∧ (∃ e, s.program[s.pc.toNat / 4]? = some e ∧ offender = .entry e) ∧ s.SameRegs t ∧ t.pc = s.pc ∧
      s.SameMem t ∧ s.SameProgram t) ∧
  ∀ lines t kind pc offender, loadLines lines = .next t → t.status = .faulted kind pc offender →
    t = { State.reset with status := .faulted kind 0#32 offender }

/-- Rule R14: an instruction writes no register but its destination, what it does depends on no register but its sources,
and nothing but an instruction writes a register. -/
def Obligations.RegistersReadAndWritten : Prop :=
  (∀ i s t, exec i s = .next t → ∀ r, Spec.dest i ≠ some r → t.readReg r = s.readReg r) ∧
  (∀ i s s' t, (∀ r ∈ Spec.sources i, s'.readReg r = s.readReg r) → s'.pc = s.pc → s'.mem = s.mem →
    s'.status = s.status → s.SameProgram s' → exec i s = .next t →
    ∃ t', exec i s' = .next t' ∧ t'.pc = t.pc ∧ t'.mem = t.mem ∧ t'.status = t.status ∧
      (t.status = s.status → s.status = .running → ∀ r, Spec.dest i = some r → t'.readReg r = t.readReg r)) ∧
  ∀ s t r, step s = .next t → t.readReg r ≠ s.readReg r →
    ∃ e i, s.program[s.pc.toNat / 4]? = some e ∧ decodeEntry s.labels s.pc e = .ok i ∧ Spec.dest i = some r

/-- Rule R44: no step changes the instruction sequence (nor the label table), whatever it stores. -/
def Obligations.ProgramNeverChanges : Prop := ∀ s t : State, step s = .next t → s.SameProgram t

/-- No instruction but a store changes a byte of memory (rules R14, R36 and R160). -/
def Obligations.OnlyStoresChangeMemory : Prop :=
  ∀ i s t, Spec.isStore i = false → exec i s = .next t → t.mem = s.mem

/-- Rule R96: after a step that does not fault and does not HALT, the pc is the target of a jump or of a branch whose
condition holds, else `w32(u(pc) + 4)`. -/
def Obligations.PcAfterAStep : Prop :=
  ∀ s t e i, step s = .next t → t.status = .running → s.program[s.pc.toNat / 4]? = some e →
    decodeEntry s.labels s.pc e = .ok i → t.pc = (Spec.transferTarget s i).getD (w32 (s.pc.toNat + 4))

/-- Rule R118: a jump, or a branch whose condition holds, to a target that is not a multiple of 4 faults, with nothing
else changed; a branch whose condition does not hold never faults. -/
def Obligations.MisalignedTransferFaults : Prop :=
  ∀ i s, (∀ target, Spec.transferTarget s i = some target → target.toNat % 4 ≠ 0 →
      ExecFaults i s .addressMisaligned) ∧
    (Spec.isBranch i = true → Spec.transferTarget s i = none → ExecMoves i s (w32 (s.pc.toNat + 4)))

/-! # The instructions -/

/-- Rule R110. -/
def Obligations.LuiLoadsTheUpperImmediate : Prop :=
  Spec.Decodes 0x7F 0x37 (fun w _ => .lui (Spec.rd w) (Spec.slice w 31 12)) ∧
  Spec.Record2 "lui" (fun _ a b => do return .lui (← regSlot a) (← immSlot 0 0xFFFFF b.toList).toNat) ∧
  ∀ rd imm s, ExecWrites (.lui rd imm) s rd (w32 (imm * 4096))

/-- Rule R115. -/
def Obligations.JalLinksAndJumps : Prop :=
  Spec.Decodes 0x7F 0x6F (fun w pc => .jal (Spec.rd w) (w32 (pc.toNat + Spec.immJ w))) ∧
  Spec.Record2 "jal" (fun table a b => do return .jal (← regSlot a) (← targetSlot table b)) ∧
  ∀ rd target s, (target.toNat % 4 = 0 → ExecLinks (.jal rd target) s rd target) ∧
    (target.toNat % 4 ≠ 0 → ExecFaults (.jal rd target) s .addressMisaligned)

/-- Rule R116. -/
def Obligations.JalrLinksAndJumps : Prop :=
  Spec.Decodes 0x707F 0x67 (Spec.recordI .jalr) ∧ Spec.RecordBase "jalr" .jalr ∧
  ∀ rd rs1 imm s,
    ((Spec.jalrTarget s rs1 imm).toNat % 4 = 0 → ExecLinks (.jalr rd rs1 imm) s rd (Spec.jalrTarget s rs1 imm)) ∧
    ((Spec.jalrTarget s rs1 imm).toNat % 4 ≠ 0 → ExecFaults (.jalr rd rs1 imm) s .addressMisaligned)

/-- Rules R121 and R122. -/
def Obligations.BeqBneCompareForEquality : Prop :=
  (Spec.Decodes 0x707F 0x63 (Spec.recordB .beq) ∧ Spec.RecordB "beq" .beq ∧ Spec.Branches .beq fun a b => a = b) ∧
  (Spec.Decodes 0x707F 0x1063 (Spec.recordB .bne) ∧ Spec.RecordB "bne" .bne ∧ Spec.Branches .bne fun a b => a ≠ b)

/-- Rules R123 and R124. -/
def Obligations.BltBgeCompareSigned : Prop :=
  (Spec.Decodes 0x707F 0x4063 (Spec.recordB .blt) ∧ Spec.RecordB "blt" .blt ∧
    Spec.Branches .blt fun a b => a.toInt < b.toInt) ∧
  (Spec.Decodes 0x707F 0x5063 (Spec.recordB .bge) ∧ Spec.RecordB "bge" .bge ∧
    Spec.Branches .bge fun a b => a.toInt ≥ b.toInt)

/-- Rules R125 and R126. -/
def Obligations.BltuBgeuCompareUnsigned : Prop :=
  (Spec.Decodes 0x707F 0x6063 (Spec.recordB .bltu) ∧ Spec.RecordB "bltu" .bltu ∧
    Spec.Branches .bltu fun a b => a.toNat < b.toNat) ∧
  (Spec.Decodes 0x707F 0x7063 (Spec.recordB .bgeu) ∧ Spec.RecordB "bgeu" .bgeu ∧
    Spec.Branches .bgeu fun a b => a.toNat ≥ b.toNat)

/-- Rule R131. -/
def Obligations.AddiAddsModulo : Prop :=
  Spec.Decodes 0x707F 0x13 (Spec.recordI .addi) ∧ Spec.RecordI "addi" .addi ∧
  Spec.WritesImm .addi fun a imm => w32 (a.toNat + imm)

/-- Rules R132 and R133. -/
def Obligations.SltiSltiuCompare : Prop :=
  (Spec.Decodes 0x707F 0x2013 (Spec.recordI .slti) ∧ Spec.RecordI "slti" .slti ∧
    Spec.WritesImm .slti fun a imm => if a.toInt < imm then 1#32 else 0#32) ∧
  (Spec.Decodes 0x707F 0x3013 (Spec.recordI .sltiu) ∧ Spec.RecordI "sltiu" .sltiu ∧
    Spec.WritesImm .sltiu fun a imm => if a.toNat < (w32 imm).toNat then 1#32 else 0#32)

/-- Rules R134, R135 and R136. -/
def Obligations.LogicalImmediates : Prop :=
  (Spec.Decodes 0x707F 0x4013 (Spec.recordI .xori) ∧ Spec.RecordI "xori" .xori ∧
    Spec.WritesImm .xori fun a imm => a ^^^ w32 imm) ∧
  (Spec.Decodes 0x707F 0x6013 (Spec.recordI .ori) ∧ Spec.RecordI "ori" .ori ∧
    Spec.WritesImm .ori fun a imm => a ||| w32 imm) ∧
  (Spec.Decodes 0x707F 0x7013 (Spec.recordI .andi) ∧ Spec.RecordI "andi" .andi ∧
    Spec.WritesImm .andi fun a imm => a &&& w32 imm)

/-- Rules R137, R138 and R139. -/
def Obligations.ShiftImmediates : Prop :=
  (Spec.Decodes 0xFE00707F 0x1013 (Spec.recordSH .slli) ∧ Spec.RecordSH "slli" .slli ∧
    Spec.WritesShift .slli fun a k => w32 (a.toNat * 2 ^ k)) ∧
  (Spec.Decodes 0xFE00707F 0x5013 (Spec.recordSH .srli) ∧ Spec.RecordSH "srli" .srli ∧
    Spec.WritesShift .srli fun a k => w32 (a.toNat / 2 ^ k)) ∧
  (Spec.Decodes 0xFE00707F 0x40005013 (Spec.recordSH .srai) ∧ Spec.RecordSH "srai" .srai ∧
    Spec.WritesShift .srai fun a k => w32 (a.toInt / 2 ^ k))

/-- Rules R146 and R147. -/
def Obligations.AddSubWrap : Prop :=
  (Spec.Decodes 0xFE00707F 0x33 (Spec.recordR .add) ∧ Spec.RecordR "add" .add ∧
    Spec.WritesReg .add fun a b => w32 (a.toNat + b.toNat)) ∧
  (Spec.Decodes 0xFE00707F 0x40000033 (Spec.recordR .sub) ∧ Spec.RecordR "sub" .sub ∧
    Spec.WritesReg .sub fun a b => w32 ((a.toNat : Int) - b.toNat))

/-- Rules R148, R152 and R153: the amount is the low 5 bits of `x[rs2]`. -/
def Obligations.ShiftsByRegister : Prop :=
  (Spec.Decodes 0xFE00707F 0x1033 (Spec.recordR .sll) ∧ Spec.RecordR "sll" .sll ∧
    Spec.WritesReg .sll fun a b => w32 (a.toNat * 2 ^ (b.toNat % 32))) ∧
  (Spec.Decodes 0xFE00707F 0x5033 (Spec.recordR .srl) ∧ Spec.RecordR "srl" .srl ∧
    Spec.WritesReg .srl fun a b => w32 (a.toNat / 2 ^ (b.toNat % 32))) ∧
  (Spec.Decodes 0xFE00707F 0x40005033 (Spec.recordR .sra) ∧ Spec.RecordR "sra" .sra ∧
    Spec.WritesReg .sra fun a b => w32 (a.toInt / 2 ^ (b.toNat % 32)))

/-- Rules R149 and R150. -/
def Obligations.SltSltuCompare : Prop :=
  (Spec.Decodes 0xFE00707F 0x2033 (Spec.recordR .slt) ∧ Spec.RecordR "slt" .slt ∧
    Spec.WritesReg .slt fun a b => if a.toInt < b.toInt then 1#32 else 0#32) ∧
  (Spec.Decodes 0xFE00707F 0x3033 (Spec.recordR .sltu) ∧ Spec.RecordR "sltu" .sltu ∧
    Spec.WritesReg .sltu fun a b => if a.toNat < b.toNat then 1#32 else 0#32)

/-- Rules R151, R154 and R155. -/
def Obligations.LogicalRegisters : Prop :=
  (Spec.Decodes 0xFE00707F 0x4033 (Spec.recordR .xor) ∧ Spec.RecordR "xor" .xor ∧
    Spec.WritesReg .xor fun a b => a ^^^ b) ∧
  (Spec.Decodes 0xFE00707F 0x6033 (Spec.recordR .or) ∧ Spec.RecordR "or" .or ∧
    Spec.WritesReg .or fun a b => a ||| b) ∧
  (Spec.Decodes 0xFE00707F 0x7033 (Spec.recordR .and) ∧ Spec.RecordR "and" .and ∧
    Spec.WritesReg .and fun a b => a &&& b)

/-- Rules R161 and R164. -/
def Obligations.LoadBytes : Prop :=
  (Spec.Decodes 0x707F 0x3 (Spec.recordI .lb) ∧ Spec.RecordBase "lb" .lb ∧
    Spec.Loads .lb 1 fun byte a => Spec.signed 8 (byte a)) ∧
  (Spec.Decodes 0x707F 0x4003 (Spec.recordI .lbu) ∧ Spec.RecordBase "lbu" .lbu ∧
    Spec.Loads .lbu 1 fun byte a => byte a)

/-- Rules R162 and R165. -/
def Obligations.LoadHalfwords : Prop :=
  (Spec.Decodes 0x707F 0x1003 (Spec.recordI .lh) ∧ Spec.RecordBase "lh" .lh ∧ Spec.NeedsAlignment .lh 2 ∧
    Spec.Loads .lh 2 fun byte a => Spec.signed 16 (byte a + 256 * byte (a + 1))) ∧
  (Spec.Decodes 0x707F 0x5003 (Spec.recordI .lhu) ∧ Spec.RecordBase "lhu" .lhu ∧ Spec.NeedsAlignment .lhu 2 ∧
    Spec.Loads .lhu 2 fun byte a => byte a + 256 * byte (a + 1))

/-- Rule R163. -/
def Obligations.LoadWords : Prop :=
  Spec.Decodes 0x707F 0x2003 (Spec.recordI .lw) ∧ Spec.RecordBase "lw" .lw ∧ Spec.NeedsAlignment .lw 4 ∧
  Spec.Loads .lw 4 fun byte a =>
    byte a + 256 * byte (a + 1) + 65536 * byte (a + 2) + 16777216 * byte (a + 3)

/-- Rule R171. -/
def Obligations.StoreBytes : Prop :=
  Spec.Decodes 0x707F 0x23 (Spec.recordS .sb) ∧ Spec.RecordBase "sb" .sb ∧ Spec.Stores .sb 1

/-- Rule R172. -/
def Obligations.StoreHalfwords : Prop :=
  Spec.Decodes 0x707F 0x1023 (Spec.recordS .sh) ∧ Spec.RecordBase "sh" .sh ∧
  Spec.NeedsAlignment .sh 2 ∧ Spec.Stores .sh 2

/-- Rule R173. -/
def Obligations.StoreWords : Prop :=
  Spec.Decodes 0x707F 0x2023 (Spec.recordS .sw) ∧ Spec.RecordBase "sw" .sw ∧
  Spec.NeedsAlignment .sw 4 ∧ Spec.Stores .sw 4

/-! # Memory -/

/-- What a store that completes writes, a load of the same address and width reads, in any state `u` with the memory the
store left and the same value in the base register: the whole word, or the low 16 or 8 bits zero-extended (rules R41,
R163, R164, R165 and R213). -/
def Obligations.LoadAfterStoreReadsWhatWasStored : Prop :=
  ∀ (s t u : State) (rs rd rbase : Reg) (imm : Int), s.mem.wf → t.status = .running → u.mem = t.mem →
    u.readReg rbase = s.readReg rbase →
    (exec (.sw rs rbase imm) s = .next t → ExecWrites (.lw rd rbase imm) u rd (s.readReg rs)) ∧
    (exec (.sh rs rbase imm) s = .next t → ExecWrites (.lhu rd rbase imm) u rd (w32 ((s.readReg rs).toNat % 65536))) ∧
    (exec (.sb rs rbase imm) s = .next t → ExecWrites (.lbu rd rbase imm) u rd (w32 ((s.readReg rs).toNat % 256)))

/-- Rule R47: a halfword or a byte access reads or replaces its bits of the containing word, and no other bit of it. -/
def Obligations.SubwordAccessInTheContainingWord : Prop :=
  ∀ (m : Memory) (ea n : Nat), m.wf → n = 1 ∨ n = 2 ∨ n = 4 → ea ≤ 0xFFFFFFFF → ea % n = 0 →
    m.readLE ea n = (m.readLE (ea - ea % 4) 4).extractLsb' (8 * (ea % 4)) (8 * n) ∧
    ∀ (v : BitVec (8 * n)) (k : Nat), k < 32 →
      ((m.writeLE ea n v).readLE (ea - ea % 4) 4).getLsbD k =
        if 8 * (ea % 4) ≤ k ∧ k < 8 * (ea % 4) + 8 * n then v.getLsbD (k - 8 * (ea % 4))
        else (m.readLE (ea - ea % 4) 4).getLsbD k

/-- Rule R36: bounds, then alignment, else the bytes at the address, least significant first. -/
def Obligations.MemReadChecksThenReads : Prop :=
  ∀ (m : Memory) (ea : Int),
    (∀ n, ¬ Spec.InBounds ea → memRead m ea n = .error .addressOutOfBounds) ∧
    (∀ n : Nat, Spec.InBounds ea → ea % n ≠ 0 → memRead m ea n = .error .addressMisaligned) ∧
    (Spec.InBounds ea → memRead m ea 1 = .ok (m.readByte ea.toNat)) ∧
    (Spec.InBounds ea → ea % 2 = 0 → memRead m ea 2 = .ok (m.readByte (ea.toNat + 1) ++ m.readByte ea.toNat)) ∧
    (Spec.InBounds ea → ea % 4 = 0 → memRead m ea 4 =
      .ok (m.readByte (ea.toNat + 3) ++ m.readByte (ea.toNat + 2) ++ m.readByte (ea.toNat + 1) ++ m.readByte ea.toNat))

/-- Rule R37: bounds, then alignment, else exactly the `n` bytes at the address written. The canonical form is the
model's (log entry 5). -/
def Obligations.MemWriteChecksThenWrites : Prop :=
  ∀ (m : Memory) (ea : Int) (n : Nat) (v : BitVec (8 * n)), m.wf → n = 1 ∨ n = 2 ∨ n = 4 →
    (¬ Spec.InBounds ea → memWrite m ea n v = .error .addressOutOfBounds) ∧
    (Spec.InBounds ea → ea % n ≠ 0 → memWrite m ea n v = .error .addressMisaligned) ∧
    (Spec.InBounds ea → ea % n = 0 → ∃ m', memWrite m ea n v = .ok m' ∧ m'.wf ∧
      (∀ k, k < n → m'.readByte (ea.toNat + k) = v.extractLsb' (8 * k) 8) ∧
      ∀ a, a < ea.toNat ∨ ea.toNat + n ≤ a → m'.readByte a = m.readByte a)

/-- Rule R46: `clear` makes every byte zero and changes nothing else; the model refuses it during a run (the spec's
decision D23, log entry 13). -/
def Obligations.ClearZeroesTheMemory : Prop :=
  ∀ s : State, (s.status = .running → hostClear s = .refused .moveDuringRun) ∧
    (s.status ≠ .running → ∃ t, hostClear s = .next t ∧ (∀ a, t.mem.readByte a = 0#8) ∧ s.SameRegs t ∧ t.pc = s.pc ∧
      t.status = s.status ∧ s.SameProgram t)

/-! # Encoding -/

/-- Decoding the word of a well-formed record that a word can hold gives the record back, at every address. -/
def Obligations.DecodeOfEncode : Prop :=
  ∀ (i : Instr) (pc : Word), i.wf = true → i.encodable pc = true → decodeWord (encode pc i) pc = .ok i

/-- Every word that decodes is the word of the record it decodes to: no bit of a legal word is dropped. -/
def Obligations.EncodeOfDecode : Prop :=
  ∀ (w pc : Word) (i : Instr), decodeWord w pc = .ok i → encode pc i = w

/-- A decoded word is a well-formed record that a word can hold, and its target, at an even address, is even (rule R74). -/
def Obligations.DecodedWordIsWellFormed : Prop :=
  ∀ (w pc : Word) (i : Instr), decodeWord w pc = .ok i → i.wf = true ∧ i.encodable pc = true

/-- A decoded source record is well-formed, and is the instruction its opcode string names (rules R66 and R94). -/
def Obligations.DecodedRecordIsWellFormed : Prop :=
  ∀ (table : LabelTable) (r : SourceRecord) (i : Instr), decodeRecord table r = .ok i →
    i.wf = true ∧ i.mnemonic = r.op

/-- The opcode map has 36 rows of 36 different mnemonics, and no word matches two of them (rule R73). -/
def Obligations.NoWordMatchesTwoRows : Prop :=
  rows.length = 36 ∧ (rows.map (·.mnemonic)).Nodup ∧
  ∀ (w : Word) (r q : Row), r ∈ rows → q ∈ rows → w &&& r.mask = r.pattern → w &&& q.mask = q.pattern →
    r.mnemonic = q.mnemonic

/-- Rule R93: a word is decoded without the label table, and nothing can be wrong with it but that it is unsupported. A
word that no row accepts, and an opcode string outside the 36, are unsupported; the classes of illegal words that rule
R75 lists are such words. -/
def Obligations.UnsupportedInstructions : Prop :=
  (∀ table w pc, decodeEntry table pc (.word w) = decodeWord w pc) ∧
  (∀ table op args, op ∉ Spec.mnemonics → decodeRecord table ⟨op, args⟩ = .error .unsupportedOperation) ∧
  (∀ w pc, (∀ r ∈ rows, w &&& r.mask ≠ r.pattern) → decodeWord w pc = .error .unsupportedOperation) ∧
  (∀ w pc kind, decodeWord w pc = .error kind → kind = .unsupportedOperation) ∧
  ∀ w pc,
    (w.toNat % 4 ≠ 3 ∨ w.toNat % 128 ∈ [0x17, 0x0F, 0x73] ∨ w = 0xFFFFFFFF#32 ∨
      (w.toNat % 128 = 0x63 ∧ Spec.slice w 14 12 ∈ [2, 3]) ∨ (w.toNat % 128 = 0x03 ∧ Spec.slice w 14 12 ∈ [3, 6, 7]) ∨
      (w.toNat % 128 = 0x23 ∧ Spec.slice w 14 12 ∈ [3, 4, 5, 6, 7]) ∨
      (w.toNat % 128 = 0x67 ∧ Spec.slice w 14 12 ≠ 0) ∨
      (w.toNat % 128 = 0x13 ∧ Spec.slice w 14 12 = 1 ∧ Spec.slice w 31 25 ≠ 0) ∨
      (w.toNat % 128 = 0x13 ∧ Spec.slice w 14 12 = 5 ∧ Spec.slice w 31 25 ∉ [0, 32]) ∨
      (w.toNat % 128 = 0x33 ∧ Spec.slice w 31 25 ∉ [0, 32]) ∨
      (w.toNat % 128 = 0x33 ∧ Spec.slice w 14 12 ∉ [0, 5] ∧ Spec.slice w 31 25 ≠ 0)) →
    decodeWord w pc = .error .unsupportedOperation

/-- Words written out from rules R71 to R73, one of each family, decode to the instruction they stand for. -/
def Obligations.SampleWordsDecode : Prop :=
  decodeWord 0x12345537 0 = .ok (.lui 10 0x12345) ∧ decodeWord 0x018000EF 8 = .ok (.jal 1 0x20) ∧
  decodeWord 0x004280E7 0 = .ok (.jalr 1 5 4) ∧ decodeWord 0xFEB50CE3 0x10 = .ok (.beq 10 11 8) ∧
  decodeWord 0xFFF5B513 0 = .ok (.sltiu 10 11 (-1)) ∧ decodeWord 0x4045D513 0 = .ok (.srai 10 11 4) ∧
  decodeWord 0x40C58533 0 = .ok (.sub 10 11 12) ∧ decodeWord 0x8005A503 0 = .ok (.lw 10 11 (-2048)) ∧
  decodeWord 0xFEA10FA3 0 = .ok (.sb 10 2 (-1))

/-- The word placed at the fetch is what the next step runs, whatever the state was. The placing is the model's (log
entry 3). -/
def Obligations.PlacedWordRunsNext : Prop :=
  ∀ (s : State) (w : Word) (i : Instr), decodeWord w s.pc = .ok i →
    step (s.withFetchWord 32 w.toNat) = exec i (s.withFetchWord 32 w.toNat) ∧
    s.SameRegs (s.withFetchWord 32 w.toNat) ∧ (s.withFetchWord 32 w.toNat).pc = s.pc ∧
    s.SameMem (s.withFetchWord 32 w.toNat)

/-! # The record level -/

/-- Rules R13 and R65: a register slot takes exactly the 64 names, and any other string is an `UnknownRegister`. -/
def Obligations.RegisterNamesResolve : Prop :=
  ∀ name, (∀ r, Spec.Names name r → regSlot name = .ok r) ∧
    ((¬ ∃ r, Spec.Names name r) → regSlot name = .error .unknownRegister)

/-- Each immediate slot takes exactly the literals of the grammar in its range, and every other token is an
`ImmediateParseError` (rule R66). That a hexadecimal digit may be of either case is the model's reading: rule R66 does not
define `hexdigit` (log entry 10). -/
def Obligations.LiteralsFollowTheGrammar : Prop :=
  Spec.SlotTakes imm12Slot (-2048) 2047 ∧ Spec.SlotTakes (immSlot 0 31) 0 31 ∧
  Spec.SlotTakes (immSlot 0 0xFFFFF) 0 0xFFFFF

/-- An `imm(reg)` token (rule R68): the literal, the name, and the order of their faults; a token without the form is
an `ImmediateParseError`. A name here is the text up to the first `)` (log entry 12). -/
def Obligations.OffsetAndBaseTokens : Prop :=
  (∀ (token : String) (lit name : List Char), token.toList = lit ++ '(' :: name ++ [')'] → '(' ∉ lit → ')' ∉ name →
    (∀ v r, imm12Slot lit = .ok v → regSlot (String.ofList name) = .ok r → baseSlot token = .ok (v, r)) ∧
    (imm12Slot lit = .error .immediateParseError → baseSlot token = .error .immediateParseError) ∧
    (∀ v, imm12Slot lit = .ok v → regSlot (String.ofList name) = .error .unknownRegister →
      baseSlot token = .error .unknownRegister)) ∧
  ∀ token : String, (¬ ∃ lit name : List Char, token.toList = lit ++ '(' :: name ++ [')'] ∧ '(' ∉ lit ∧ ')' ∉ name) →
    baseSlot token = .error .immediateParseError

/-- Rules R61 and R63: a program that loads has the records of its instruction lines in order, and a label line bound
to the address `4*k` of the instruction that follows it, which exists. -/
def Obligations.LoadedProgramIsTheLines : Prop :=
  ∀ lines s, loadLines lines = .next s → s.status = .running →
    s.program = Spec.lineEntries lines ∧ s.program.length ≤ 2 ^ 30 - 1 ∧
    ∀ name a, (name, a) ∈ s.labels ↔ ∃ before line after, lines = before ++ line :: after ∧ Spec.LabelLine line name ∧
      a = w32 (4 * (Spec.lineEntries before).length) ∧ (Spec.lineEntries before).length < s.program.length

/-- The resolver's part of rules R182 and R183, in the order of rule R189: the first offending line stops the load with
its kind, as does a label with no instruction after it, and the state is then the reset state (rule R190). That the
status holds the pc 0 and no program is left in place is the model's choice (log entry 11), and what the status is about
is the model's reading of the information these rules name (log entry 2). -/
def Obligations.ResolutionErrorsStopTheLoad : Prop :=
  (∀ before line after p, resolve before = .ok p →
    ((∀ name, ¬ Spec.LabelLine line name) → ¬ Spec.InstrLine line →
      loadLines (before ++ line :: after) = .next (State.failedLoad ⟨.syntaxError, .line line⟩)) ∧
    (Spec.LabelLine line "" →
      loadLines (before ++ line :: after) = .next (State.failedLoad ⟨.syntaxError, .line line⟩)) ∧
    (∀ name a, Spec.LabelLine line name → (name, a) ∈ p.labels →
      loadLines (before ++ line :: after) = .next (State.failedLoad ⟨.duplicateLabel, .label name⟩))) ∧
  ∀ lines p name, resolve lines = .ok p → p.entries.length ≤ 2 ^ 30 - 1 →
    (name, w32 (4 * p.entries.length)) ∈ p.labels →
    ∃ e, loadLines lines = .next (State.failedLoad e) ∧ e.kind = .syntaxError

/-- Rules R67 and R185: a target slot takes exactly the names of the label table, each for its address; a program with a
jump or branch to a label it does not declare never runs, and in a program that runs the decoder's own check cannot
fire. Where the lines have no other resolution error and the length is admitted, the load ends in `UnresolvedLabel`
about the name and the address `4*k` of the first such record in sequence order, with registers, pc and memory at reset
(rules R189 and R190). That the status holds the name and the address together is the model's form of the information
of rule R185 (log entry 2). -/
def Obligations.UndefinedLabelsNeverRun : Prop :=
  (∀ (table : LabelTable) (name : String),
    (∀ t, table.address? name = some t → targetSlot table name = .ok t) ∧
    (table.address? name = none → targetSlot table name = .error .unresolvedLabel)) ∧
  (∀ lines s, loadLines lines = .next s →
    ((∃ r name, Entry.record r ∈ Spec.lineEntries lines ∧ Spec.refersTo r = some name ∧
        ∀ line ∈ lines, ¬ Spec.LabelLine line name) →
      s.status ≠ .running) ∧
    (s.status = .running → ∀ e ∈ s.program, decodeEntry s.labels s.pc e ≠ .error .unresolvedLabel)) ∧
  ∀ (lines : List (List String)) (p : Program) (before after : List Entry) (r : SourceRecord) (name : String),
    resolve lines = .ok p → (∀ line ∈ lines.getLast?, Spec.InstrLine line) →
    (Spec.lineEntries lines).length ≤ 2 ^ 30 - 1 → Spec.lineEntries lines = before ++ .record r :: after →
    Spec.refersTo r = some name → (∀ line ∈ lines, ¬ Spec.LabelLine line name) →
    (∀ q n, Entry.record q ∈ before → Spec.refersTo q = some n → ∃ line ∈ lines, Spec.LabelLine line n) →
    ∃ s pc, loadLines lines = .next s ∧
      s.status = .faulted .unresolvedLabel pc (.reference name (w32 (4 * before.length))) ∧ Spec.AtReset s

/-- Lines load, to a running state with their records in place and registers, pc and memory at reset, when they are
label lines and instruction lines, the label names are not empty and differ, an instruction follows the labels, and every
label that is referred to is declared (rules R61 to R63, R67 and R212; `LoadedProgramIsTheLines` gives the labels). Words
of an admitted number load to such a state with these words and no label in place (rules R70, R204 and R212). -/
def Obligations.WellFormedProgramsLoad : Prop :=
  (∀ lines : List (List String),
    (∀ line ∈ lines, Spec.InstrLine line ∨ ∃ name, name ≠ "" ∧ Spec.LabelLine line name) →
    (lines.Pairwise fun a b => ∀ name, ¬ (Spec.LabelLine a name ∧ Spec.LabelLine b name)) →
    (∀ line ∈ lines.getLast?, Spec.InstrLine line) → (Spec.lineEntries lines).length ≤ 2 ^ 30 - 1 →
    (∀ r name, Entry.record r ∈ Spec.lineEntries lines → Spec.refersTo r = some name →
      ∃ line ∈ lines, Spec.LabelLine line name) →
    ∃ s, loadLines lines = .next s ∧ s.status = .running ∧ s.program = Spec.lineEntries lines ∧ Spec.AtReset s) ∧
  ∀ ws : List Word, ws.length ≤ 2 ^ 30 - 1 →
    ∃ s, loadWords ws = .next s ∧ s.status = .running ∧ s.program = ws.map .word ∧ s.labels = [] ∧ Spec.AtReset s

/-- A run on a step budget composes; while it is `Running` each further unit of the budget is one step; and it stays where
its status has left `Running` (rules R24, R99 and R204). The budgeted run is the model's reading (log entry 14), and so is
what it answers from a terminal status, where the spec admits no run and the step is a stop of the model's (log
entry 1). -/
def Obligations.RunOnABudget : Prop :=
  (∀ m n s, runFuel (m + n) s = runFuel n (runFuel m s)) ∧
  (∀ n s, (runFuel n s).status = .running → step (runFuel n s) = .next (runFuel (n + 1) s)) ∧
  ∀ n s, s.status ≠ .running → runFuel n s = s
end

