-- ==== Sys2Proof/Laws/Decode.lean ====
section
/-! SUPPORT. The rows of the opcode map do not overlap, so a word that a row accepts decodes by that row; and the fields
of a word laid out by the encoder. -/

namespace Sys2Proof

/-- Two patterns that differ where both masks look accept no word in common. -/
theorem accepts_disjoint {r q : Row} (h : (r.pattern ^^^ q.pattern) &&& (r.mask &&& q.mask) ≠ 0#32) {w : Word}
    (hr : r.accepts w = true) : q.accepts w = false := by
  by_contra hq
  simp only [Row.accepts, beq_iff_eq, Bool.not_eq_false] at hr hq
  refine h ?_
  rw [← hr, ← hq]
  ext k hk
  simp only [BitVec.getElem_and, BitVec.getElem_xor, BitVec.getElem_zero]
  cases w[k] <;> cases r.mask[k] <;> cases q.mask[k] <;> rfl

/-- The 36 patterns are pairwise disjoint (rule R73). -/
theorem rows_disjoint :
    rows.Pairwise fun r q => (r.pattern ^^^ q.pattern) &&& (r.mask &&& q.mask) ≠ 0#32 := by
  decide

theorem find_of_pairwise {rs : List Row}
    (hd : rs.Pairwise fun r q => (r.pattern ^^^ q.pattern) &&& (r.mask &&& q.mask) ≠ 0#32) {r : Row} {w : Word}
    (hm : r ∈ rs) (ha : r.accepts w = true) : (rs.find? fun q => q.accepts w) = some r := by
  induction rs with
  | nil => simp at hm
  | cons q rs ih =>
    rw [List.pairwise_cons] at hd
    rcases List.mem_cons.mp hm with rfl | hm
    · simp [ha]
    · have hq : q.accepts w = false := by
        by_contra hq
        rw [Bool.not_eq_false] at hq
        have := accepts_disjoint (hd.1 r hm) hq
        rw [ha] at this
        cases this
      rw [List.find?_cons, hq]
      exact ih hd.2 hm

/-- A word that a row accepts decodes by that row. -/
theorem decodeWord_of_accepts {r : Row} {w : Word} (hm : r ∈ rows) (ha : r.accepts w = true) (pc : Word) :
    decodeWord w pc = .ok (r.form.ofWord w pc) := by
  unfold decodeWord
  rw [find_of_pairwise rows_disjoint hm ha]

/-- A word that decodes is accepted by a row, and decodes by it. -/
theorem accepts_of_decodeWord {w pc : Word} {i : Instr} (h : decodeWord w pc = .ok i) :
    ∃ r ∈ rows, r.accepts w = true ∧ i = r.form.ofWord w pc := by
  unfold decodeWord at h
  split at h
  · rename_i r hr
    exact ⟨r, List.mem_of_find?_eq_some hr, List.find?_some (p := fun q : Row => q.accepts w) hr,
      (Except.ok.inj h).symm⟩
  · cases h

/-- A word that no row accepts is unsupported (rule R75). -/
theorem decodeWord_unsupported {w : Word} (h : ∀ r ∈ rows, r.accepts w = false) (pc : Word) :
    decodeWord w pc = .error .unsupportedOperation := by
  unfold decodeWord
  rw [List.find?_eq_none.mpr (by simpa using h)]

/-! ## The well-formedness checks as propositions -/

theorem immOk_iff {imm : Int} : immOk imm = true ↔ -2048 ≤ imm ∧ imm ≤ 2047 :=
  ⟨fun h => of_decide_eq_true h, fun h => decide_eq_true h⟩

theorem shamtOk_iff {shamt : Nat} : shamtOk shamt = true ↔ shamt ≤ 31 :=
  ⟨fun h => of_decide_eq_true h, fun h => decide_eq_true h⟩

theorem upperOk_iff {imm : Nat} : upperOk imm = true ↔ imm ≤ 0xFFFFF :=
  ⟨fun h => of_decide_eq_true h, fun h => decide_eq_true h⟩

theorem jumpReach_iff {pc target : Word} : jumpReach pc target = true ↔
    (target - pc).toInt % 2 = 0 ∧ -1048576 ≤ (target - pc).toInt ∧ (target - pc).toInt ≤ 1048574 :=
  decide_eq_true_iff

theorem branchReach_iff {pc target : Word} : branchReach pc target = true ↔
    (target - pc).toInt % 2 = 0 ∧ -4096 ≤ (target - pc).toInt ∧ (target - pc).toInt ≤ 4094 :=
  decide_eq_true_iff

/-! ## Fields and layouts as numbers -/

theorem extract_toNat (w : Word) (lo len : Nat) : (w.extractLsb' lo len).toNat = w.toNat / 2 ^ lo % 2 ^ len := by
  simp [Nat.shiftRight_eq_div_pow]

theorem append_toNat {a b : Nat} (x : BitVec a) (y : BitVec b) : (x ++ y).toNat = x.toNat * 2 ^ b + y.toNat := by
  rw [BitVec.toNat_append, ← Nat.shiftLeft_add_eq_or_of_lt y.isLt, Nat.shiftLeft_eq]

theorem regBits_toNat (r : Reg) : (regBits r).toNat = r.val := by simp [regBits]

theorem encR_toNat (funct7 : BitVec 7) (rs2 rs1 : BitVec 5) (funct3 : BitVec 3) (rd : BitVec 5) (op : BitVec 7) :
    (encR funct7 rs2 rs1 funct3 rd op).toNat =
      ((((funct7.toNat * 32 + rs2.toNat) * 32 + rs1.toNat) * 8 + funct3.toNat) * 32 + rd.toNat) * 128 + op.toNat := by
  refine (append_toNat _ _).trans ?_
  simp only [append_toNat, Nat.reducePow]

theorem encI_toNat (imm : Int) (rs1 : Reg) (funct3 : BitVec 3) (rd : Reg) (op : BitVec 7) :
    (encI imm rs1 funct3 rd op).toNat =
      ((((BitVec.ofInt 12 imm).toNat * 32 + rs1.val) * 8 + funct3.toNat) * 32 + rd.val) * 128 + op.toNat := by
  refine (append_toNat _ _).trans ?_
  simp only [append_toNat, regBits_toNat, Nat.reducePow]

theorem encS_toNat (imm : Int) (rs2 rs1 : Reg) (funct3 : BitVec 3) (op : BitVec 7) :
    (encS imm rs2 rs1 funct3 op).toNat =
      (((((BitVec.ofInt 12 imm).toNat / 32 % 128 * 32 + rs2.val) * 32 + rs1.val) * 8 + funct3.toNat) * 32 +
        (BitVec.ofInt 12 imm).toNat % 32) * 128 + op.toNat := by
  refine (append_toNat _ _).trans ?_
  simp only [append_toNat, regBits_toNat, Nat.reducePow, BitVec.extractLsb'_toNat, Nat.shiftRight_eq_div_pow, Nat.div_one]

theorem encB_toNat (off : Word) (rs2 rs1 : Reg) (funct3 : BitVec 3) (op : BitVec 7) :
    (encB off rs2 rs1 funct3 op).toNat =
      ((((((off.toNat / 4096 % 2 * 64 + off.toNat / 32 % 64) * 32 + rs2.val) * 32 + rs1.val) * 8 + funct3.toNat) * 16 +
        off.toNat / 2 % 16) * 2 + off.toNat / 2048 % 2) * 128 + op.toNat := by
  refine (append_toNat _ _).trans ?_
  simp only [append_toNat, regBits_toNat, Nat.reducePow, extract_toNat, Nat.pow_one]

theorem encU_toNat (imm : Nat) (rd : Reg) (op : BitVec 7) :
    (encU imm rd op).toNat = (imm % 1048576 * 32 + rd.val) * 128 + op.toNat := by
  refine (append_toNat _ _).trans ?_
  simp only [append_toNat, regBits_toNat, Nat.reducePow, BitVec.toNat_ofNat]

theorem encJ_toNat (off : Word) (rd : Reg) (op : BitVec 7) :
    (encJ off rd op).toNat =
      ((((off.toNat / 1048576 % 2 * 1024 + off.toNat / 2 % 1024) * 2 + off.toNat / 2048 % 2) * 256 +
        off.toNat / 4096 % 256) * 32 + rd.val) * 128 + op.toNat := by
  refine (append_toNat _ _).trans ?_
  simp only [append_toNat, regBits_toNat, Nat.reducePow, extract_toNat, Nat.pow_one]

/-! ## Masks over a word laid out by the encoder -/

variable (funct7 : BitVec 7) (rs2 rs1 rd : BitVec 5) (funct3 : BitVec 3) (op : BitVec 7)

theorem encR_mask : encR funct7 rs2 rs1 funct3 rd op &&& 0xFE00707F#32 = encR funct7 0#5 0#5 funct3 0#5 op := by
  have : 0xFE00707F#32 = encR (BitVec.allOnes 7) 0#5 0#5 (BitVec.allOnes 3) 0#5 (BitVec.allOnes 7) := by decide
  rw [this]
  unfold encR
  refine BitVec.and_append.trans ?_
  simp only [BitVec.and_append, BitVec.and_allOnes, BitVec.and_zero]

theorem encI_mask (imm : Int) (r q : Reg) :
    encI imm r funct3 q op &&& 0x0000707F#32 = encR 0#7 0#5 0#5 funct3 0#5 op := by
  have h : 0x0000707F#32 = (0#12 ++ 0#5 ++ BitVec.allOnes 3 ++ 0#5 ++ BitVec.allOnes 7 : BitVec 32) := by decide
  have h0 : (0#7 ++ 0#5 : BitVec 12) = 0#12 := by decide
  rw [h]
  unfold encI encR
  refine BitVec.and_append.trans ?_
  simp only [BitVec.and_append, BitVec.and_allOnes, BitVec.and_zero, h0]

theorem encS_mask (imm : Int) (r q : Reg) :
    encS imm r q funct3 op &&& 0x0000707F#32 = encR 0#7 0#5 0#5 funct3 0#5 op := by
  have h : 0x0000707F#32 = encR 0#7 0#5 0#5 (BitVec.allOnes 3) 0#5 (BitVec.allOnes 7) := by decide
  rw [h]
  unfold encS encR
  refine BitVec.and_append.trans ?_
  simp only [BitVec.and_append, BitVec.and_allOnes, BitVec.and_zero]

theorem encB_mask (off : Word) (r q : Reg) :
    encB off r q funct3 op &&& 0x0000707F#32 = encR 0#7 0#5 0#5 funct3 0#5 op := by
  have h : 0x0000707F#32 =
      (0#1 ++ 0#6 ++ 0#5 ++ 0#5 ++ BitVec.allOnes 3 ++ 0#4 ++ 0#1 ++ BitVec.allOnes 7 : BitVec 32) := by decide
  have h0 : (0#1 ++ 0#6 : BitVec 7) = 0#7 := by decide
  have h1 : (0#7 ++ 0#5 ++ 0#5 ++ funct3 ++ 0#4 ++ 0#1 : BitVec 25) = 0#7 ++ 0#5 ++ 0#5 ++ funct3 ++ 0#5 := by
    generalize funct3 = x
    revert x
    decide
  rw [h]
  unfold encB encR
  refine BitVec.and_append.trans ?_
  simp only [BitVec.and_append, BitVec.and_allOnes, BitVec.and_zero, h0, h1]

theorem encU_mask (imm : Nat) (r : Reg) : encU imm r op &&& 0x0000007F#32 = encR 0#7 0#5 0#5 0#3 0#5 op := by
  have h : 0x0000007F#32 = (0#20 ++ 0#5 ++ BitVec.allOnes 7 : BitVec 32) := by decide
  have h0 : (0#7 ++ 0#5 ++ 0#5 ++ 0#3 : BitVec 20) = 0#20 := by decide
  rw [h]
  unfold encU encR
  refine BitVec.and_append.trans ?_
  simp only [BitVec.and_append, BitVec.and_allOnes, BitVec.and_zero, h0]

theorem encJ_mask (off : Word) (r : Reg) : encJ off r op &&& 0x0000007F#32 = encR 0#7 0#5 0#5 0#3 0#5 op := by
  have h : 0x0000007F#32 = (0#1 ++ 0#10 ++ 0#1 ++ 0#8 ++ 0#5 ++ BitVec.allOnes 7 : BitVec 32) := by decide
  have h0 : (0#1 ++ 0#10 ++ 0#1 ++ 0#8 : BitVec 20) = 0#7 ++ 0#5 ++ 0#5 ++ 0#3 := by decide
  rw [h]
  unfold encJ encR
  refine BitVec.and_append.trans ?_
  simp only [BitVec.and_append, BitVec.and_allOnes, BitVec.and_zero]
  rw [h0]

end Sys2Proof
end

