-- ==== Sys2Proof/Laws/State.lean ====
section
/-! SUPPORT. One lemma per field per update of the state, so that no later proof unfolds a record update. -/

namespace Sys2Proof.Machine

variable (s : State) (r q : Reg) (v t : Word) (k : FaultKind) (e : Entry)

/-! ## `setPc` and `advance` -/

@[simp] theorem setPc_regs : (s.setPc t).regs = s.regs := rfl
@[simp] theorem setPc_pc : (s.setPc t).pc = t := rfl
@[simp] theorem setPc_mem : (s.setPc t).mem = s.mem := rfl
@[simp] theorem setPc_status : (s.setPc t).status = s.status := rfl
@[simp] theorem setPc_program : (s.setPc t).program = s.program := rfl
@[simp] theorem setPc_labels : (s.setPc t).labels = s.labels := rfl
@[simp] theorem setPc_readReg : (s.setPc t).readReg r = s.readReg r := rfl

@[simp] theorem advance_regs : s.advance.regs = s.regs := rfl
@[simp] theorem advance_pc : s.advance.pc = s.nextPc := rfl
@[simp] theorem advance_mem : s.advance.mem = s.mem := rfl
@[simp] theorem advance_status : s.advance.status = s.status := rfl
@[simp] theorem advance_program : s.advance.program = s.program := rfl
@[simp] theorem advance_labels : s.advance.labels = s.labels := rfl
@[simp] theorem advance_readReg : s.advance.readReg r = s.readReg r := rfl

/-! ## `writeReg` -/

@[simp] theorem writeReg_zero : s.writeReg 0 v = s := rfl

@[simp] theorem writeReg_pc : (s.writeReg r v).pc = s.pc := by unfold State.writeReg; split <;> rfl
@[simp] theorem writeReg_nextPc : (s.writeReg r v).nextPc = s.nextPc := by unfold State.nextPc; rw [writeReg_pc]
@[simp] theorem writeReg_mem : (s.writeReg r v).mem = s.mem := by unfold State.writeReg; split <;> rfl
@[simp] theorem writeReg_status : (s.writeReg r v).status = s.status := by unfold State.writeReg; split <;> rfl
@[simp] theorem writeReg_program : (s.writeReg r v).program = s.program := by unfold State.writeReg; split <;> rfl
@[simp] theorem writeReg_labels : (s.writeReg r v).labels = s.labels := by unfold State.writeReg; split <;> rfl

theorem writeReg_regs_of_ne (h : r ≠ 0) : (s.writeReg r v).regs = s.regs.set r.val v := by
  unfold State.writeReg; rw [if_neg h]

/-- The stored cell of register 0 is written by nothing. -/
@[simp] theorem writeReg_regs_zero : (s.writeReg r v).regs[0] = s.regs[0] := by
  unfold State.writeReg
  split
  · rfl
  · rename_i h
    exact Vector.getElem_set_ne r.isLt (by omega) (fun h0 => h (Fin.ext h0))

/-! ## `readReg` -/

@[simp] theorem readReg_zero : s.readReg 0 = 0#32 := rfl

/-- A register reads as what was written, register 0 as zero (rule R12). -/
theorem readReg_writeReg_same : (s.writeReg r v).readReg r = if r = 0 then 0#32 else v := by
  unfold State.readReg State.writeReg
  split <;> simp

/-- A write leaves every other register alone. -/
theorem readReg_writeReg_ne (h : q ≠ r) : (s.writeReg r v).readReg q = s.readReg q := by
  unfold State.readReg State.writeReg
  split
  · rfl
  · split
    · rfl
    · exact Vector.getElem_set_ne r.isLt (by omega) (fun hv => h (Fin.ext hv.symm))

/-! ## `raiseFault` and `halt` -/

@[simp] theorem raiseFault_regs : (s.raiseFault k).regs = s.regs := rfl
@[simp] theorem raiseFault_pc : (s.raiseFault k).pc = s.pc := rfl
@[simp] theorem raiseFault_mem : (s.raiseFault k).mem = s.mem := rfl
@[simp] theorem raiseFault_status : (s.raiseFault k).status = .faulted k s.pc s.offender := rfl
@[simp] theorem raiseFault_program : (s.raiseFault k).program = s.program := rfl
@[simp] theorem raiseFault_labels : (s.raiseFault k).labels = s.labels := rfl
@[simp] theorem raiseFault_readReg : (s.raiseFault k).readReg r = s.readReg r := rfl
@[simp] theorem raiseFault_fetchEntry : (s.raiseFault k).fetchEntry = s.fetchEntry := rfl

@[simp] theorem halt_regs : s.halt.regs = s.regs := rfl
@[simp] theorem halt_pc : s.halt.pc = s.pc := rfl
@[simp] theorem halt_mem : s.halt.mem = s.mem := rfl
@[simp] theorem halt_status : s.halt.status = .halted := rfl
@[simp] theorem halt_program : s.halt.program = s.program := rfl
@[simp] theorem halt_labels : s.halt.labels = s.labels := rfl
@[simp] theorem halt_readReg : s.halt.readReg r = s.readReg r := rfl
@[simp] theorem halt_fetchEntry : s.halt.fetchEntry = s.fetchEntry := rfl

/-- The report of a fault holds the record or word at the pc. -/
theorem offender_of_fetch (h : s.fetchEntry = some e) : s.offender = .entry e := by
  unfold State.offender; rw [h]

/-! ## The pc and the fetch -/

/-- The fetch index is the pc divided by 4 (rule R91). -/
theorem fetchEntry_eq : s.fetchEntry = s.program[s.pc.toNat / 4]? := by
  unfold State.fetchEntry State.fetchIndex; rw [Nat.shiftRight_eq_div_pow]

/-- The successor is `w32(u(pc) + 4)` (rule R17). -/
theorem nextPc_eq_w32 : s.nextPc = w32 (s.pc.toNat + 4) := by
  have h : (s.pc.toNat : Int) + 4 = ((s.pc.toNat + 4 : Nat) : Int) := by omega
  rw [h, w32, BitVec.ofInt_natCast]
  apply BitVec.eq_of_toNat_eq
  simp [State.nextPc]

/-- The successor of a multiple of 4 is one. -/
theorem nextPc_aligned (h : s.pc.toNat % 4 = 0) : s.nextPc.toNat % 4 = 0 := by
  unfold State.nextPc
  rw [BitVec.toNat_add]
  simp only [BitVec.toNat_ofNat]
  omega

/-! ## Memory replaced -/

variable (m : Memory)

@[simp] theorem withMem_readReg : State.readReg { s with mem := m } r = s.readReg r := rfl
@[simp] theorem withMem_nextPc : State.nextPc { s with mem := m } = s.nextPc := rfl
@[simp] theorem withMem_advance_mem : (State.advance { s with mem := m }).mem = m := rfl
@[simp] theorem withMem_advance_regs : (State.advance { s with mem := m }).regs = s.regs := rfl
@[simp] theorem withMem_advance_status : (State.advance { s with mem := m }).status = s.status := rfl
@[simp] theorem withMem_advance_program : (State.advance { s with mem := m }).program = s.program := rfl
@[simp] theorem withMem_advance_labels : (State.advance { s with mem := m }).labels = s.labels := rfl

/-! ## `placeEntry` -/

@[simp] theorem placeEntry_regs : (s.placeEntry e).regs = s.regs := rfl
@[simp] theorem placeEntry_pc : (s.placeEntry e).pc = s.pc := rfl
@[simp] theorem placeEntry_mem : (s.placeEntry e).mem = s.mem := rfl
@[simp] theorem placeEntry_status : (s.placeEntry e).status = .running := rfl
@[simp] theorem placeEntry_labels : (s.placeEntry e).labels = s.labels := rfl

/-- The element placed is the one the pc selects. -/
@[simp] theorem placeEntry_fetchEntry : (s.placeEntry e).fetchEntry = some e := by
  have hlen : (s.program.take s.fetchIndex ++ List.replicate (s.fetchIndex - s.program.length) (Entry.word 0#32)).length
      = s.fetchIndex := by
    simp only [List.length_append, List.length_take, List.length_replicate]; omega
  change (State.placeEntry s e).program[s.fetchIndex]? = some e
  simp only [State.placeEntry]
  rw [List.getElem?_append_right (by omega), hlen]
  simp

/-! ## The states a load leaves -/

variable (p : Program) (le : LoadError)

@[simp] theorem boot_regs : (State.boot p).regs = State.reset.regs := rfl
@[simp] theorem boot_pc : (State.boot p).pc = Config.entryPoint := rfl
@[simp] theorem boot_mem : (State.boot p).mem = [] := rfl
@[simp] theorem boot_status : (State.boot p).status = .running := rfl
@[simp] theorem boot_program : (State.boot p).program = p.entries := rfl
@[simp] theorem boot_labels : (State.boot p).labels = p.labels := rfl
@[simp] theorem failedLoad_status : (State.failedLoad le).status = .faulted le.kind 0#32 le.offender := rfl

/-- Every register reads as zero after reset (rule R25). -/
@[simp] theorem reset_readReg : State.reset.readReg r = 0#32 := by
  unfold State.readReg State.reset
  split
  · rfl
  · simp [Config.resetRegister]

end Sys2Proof.Machine
end

