-- ==== Sys2Proof/Laws/Loader.lean ====
section
/-! SUPPORT. What the resolver and the host's load can do, said once. -/

namespace Sys2Proof

variable {table : LabelTable} {name : String}

theorem address?_isSome_iff : (table.address? name).isSome ↔ ∃ a, (name, a) ∈ table := by
  unfold LabelTable.address?
  rw [Option.isSome_map, List.find?_isSome]
  constructor
  · rintro ⟨⟨n, a⟩, hm, he⟩
    rw [beq_iff_eq] at he
    exact ⟨a, he ▸ hm⟩
  · rintro ⟨a, h⟩
    exact ⟨_, h, beq_self_eq_true _⟩

theorem address?_eq_none_iff : table.address? name = none ↔ ¬ ∃ a, (name, a) ∈ table := by
  rw [← address?_isSome_iff, Option.not_isSome_iff_eq_none]

end Sys2Proof

namespace Sys2Proof.Machine

variable {p q : Program} {s : State}

theorem addressOf_toNat {k : Nat} (h : k ≤ Config.maxProgramLength) : (addressOf k).toNat = 4 * k := by
  unfold Config.maxProgramLength at h
  unfold addressOf
  rw [BitVec.toNat_ofNat]
  omega

/-- A label line: the token is the name and a colon. -/
theorem labelName_eq_some_iff {line : List String} {name : String} :
    labelName line = some name ↔ ∃ token, line = [token] ∧ token.toList = name.toList ++ [':'] := by
  constructor
  · intro h
    unfold labelName at h
    split at h
    · rename_i token
      split at h
      · rename_i hr
        cases h
        exact ⟨token, rfl, by simpa using congrArg List.reverse hr⟩
      · cases h
    · cases h
  · rintro ⟨token, rfl, h⟩
    simp [labelName, h]

theorem resolveFrom_append (p : Program) (xs ys : List (List String)) :
    resolveFrom p (xs ++ ys) = (resolveFrom p xs).bind fun q => resolveFrom q ys := by
  induction xs generalizing p with
  | nil => rfl
  | cons x xs ih =>
    simp only [List.cons_append, resolveFrom]
    cases resolveLine p x with
    | error => rfl
    | ok q => exact ih q

/-- A line the resolver takes adds one label with a new, non-empty name, or one record. -/
theorem resolveLine_cases {line : List String} (h : resolveLine p line = .ok q) :
    (∃ name, labelName line = some name ∧ name ≠ "" ∧ p.labels.address? name = none ∧
      q = { p with labels := p.labels ++ [(name, addressOf p.entries.length)] }) ∨
    (labelName line = none ∧ ∃ op args, line = op :: args ∧ (args.length = 2 ∨ args.length = 3) ∧
      q = { p with entries := p.entries ++ [.record ⟨op, args⟩] }) := by
  unfold resolveLine at h
  cases hl : labelName line with
  | some name =>
    rw [hl] at h
    simp only at h
    split at h <;> [cases h; skip]
    split at h <;> [cases h; skip]
    rename_i hne hn
    cases h
    exact .inl ⟨name, rfl, hne, by simpa using hn, rfl⟩
  | none =>
    rw [hl] at h
    simp only at h
    split at h
    · cases h; exact .inr ⟨rfl, _, _, rfl, .inl rfl, rfl⟩
    · cases h; exact .inr ⟨rfl, _, _, rfl, .inr rfl, rfl⟩
    · cases h

/-- The first line the resolver does not take stops the load. -/
theorem loadLines_of_resolveLine_error {before after : List (List String)} {line : List String} {e : LoadError}
    (hp : resolve before = .ok p) (he : resolveLine p line = .error e) :
    loadLines (before ++ line :: after) = .next (State.failedLoad e) := by
  have hr : resolve (before ++ line :: after) = .error e := by
    unfold resolve at *
    rw [resolveFrom_append, hp]
    simp only [Except.bind, resolveFrom, he]
  unfold loadLines
  rw [hr]

/-- A load that answers a state answers a failed load, or the program that the resolver made and no check refused. -/
theorem loadLines_cases {lines : List (List String)} (h : loadLines lines = .next s) :
    (∃ e, s = State.failedLoad e) ∨
      ∃ p, resolve lines = .ok p ∧ p.entries.length ≤ Config.maxProgramLength ∧ endCheck p = none ∧
        s = State.boot p := by
  unfold loadLines at h
  split at h
  · cases h; exact .inl ⟨_, rfl⟩
  · rename_i p hp
    split at h
    · cases h
    · rename_i hlen
      split at h
      · cases h; exact .inl ⟨_, rfl⟩
      · rename_i hc
        cases h
        exact .inr ⟨p, hp, Nat.le_of_not_lt hlen, hc, rfl⟩

theorem trailingLabel_eq_none_iff : trailingLabel p = none ↔ ∀ row ∈ p.labels, row.2 ≠ addressOf p.entries.length := by
  unfold trailingLabel
  rw [Option.map_eq_none_iff, List.find?_eq_none]
  simp only [beq_iff_eq, ne_eq]

/-- The check of the label references passes exactly when every label that a record refers to is declared. -/
theorem unresolvedFrom_eq_none_iff {table : LabelTable} {es : List Entry} (k : Nat) :
    unresolvedFrom table k es = none ↔
      ∀ r name, Entry.record r ∈ es → r.labelRef = some name → ∃ a, (name, a) ∈ table := by
  induction es generalizing k with
  | nil => simp [unresolvedFrom]
  | cons e es ih =>
    cases e with
    | word w => simp [unresolvedFrom, ih]
    | record r =>
      simp only [unresolvedFrom, List.mem_cons, Entry.record.injEq]
      cases hr : r.labelRef with
      | none =>
        rw [ih]
        refine ⟨fun h q name hm hn => ?_, fun h q name hm => h q name (.inr hm)⟩
        rcases hm with rfl | hm
        · rw [hr] at hn; cases hn
        · exact h q name hm hn
      | some name =>
        simp only
        cases ha : table.address? name with
        | none =>
          simp only [reduceCtorEq, false_iff]
          exact fun h => address?_eq_none_iff.mp ha (h r name (.inl rfl) hr)
        | some a =>
          have hin : ∃ a, (name, a) ∈ table := address?_isSome_iff.mp (by rw [ha]; rfl)
          simp only [ih]
          refine ⟨fun h q n hm hn => ?_, fun h q n hm => h q n (.inr hm)⟩
          rcases hm with rfl | hm
          · rw [hr] at hn; cases hn; exact hin
          · exact h q n hm hn

/-- The check reports the first record that refers to a label the table does not hold. -/
theorem unresolvedFrom_of_first {table : LabelTable} {before after : List Entry} {r : SourceRecord} {name : String}
    (hb : ∀ q n, Entry.record q ∈ before → q.labelRef = some n → ∃ a, (n, a) ∈ table) (hr : r.labelRef = some name)
    (hn : table.address? name = none) (k : Nat) :
    unresolvedFrom table k (before ++ .record r :: after) =
      some ⟨.unresolvedLabel, .reference name (addressOf (k + before.length))⟩ := by
  induction before generalizing k with
  | nil => simp only [List.nil_append, List.length_nil, Nat.add_zero, unresolvedFrom, hr, hn]
  | cons e es ih =>
    have hk : k + (e :: es).length = k + 1 + es.length := by rw [List.length_cons]; omega
    rw [hk, ← ih (fun q n hm => hb q n (List.mem_cons_of_mem _ hm)) (k + 1), List.cons_append]
    cases e with
    | word w => rfl
    | record q =>
      rw [unresolvedFrom]
      cases hq : q.labelRef with
      | none => rfl
      | some n =>
        obtain ⟨a, ha⟩ := Option.isSome_iff_exists.mp (address?_isSome_iff.mpr (hb q n List.mem_cons_self hq))
        simp only [ha]

/-- A list of words of an admitted length is put in place as it is. -/
theorem loadWords_of_le {ws : List Word} (h : ws.length ≤ Config.maxProgramLength) :
    loadWords ws = .next (State.boot ⟨ws.map .word, []⟩) := by
  unfold loadWords
  rw [if_neg (Nat.not_lt.mpr h)]

end Sys2Proof.Machine
end

