-- ==== Sys2Proof/Laws/Memory.lean ====
section
/-! SUPPORT. The laws of the data memory: reads after writes, the canonical form kept by every operation, and that two
memories in canonical form which read alike are equal. -/

namespace Sys2Proof.Machine

variable {m : Memory} {a b n : Nat} {v : Byte}

@[simp] theorem readByte_nil : Memory.readByte [] a = Config.unwrittenByte := rfl

/-- An address that no cell lists reads as the unwritten byte (rule R30). -/
theorem readByte_of_absent (h : ∀ c ∈ m, c.1 ≠ a) : m.readByte a = Config.unwrittenByte := by
  induction m with
  | nil => rfl
  | cons c m ih =>
    unfold Memory.readByte
    rw [if_neg (h c (by simp))]
    exact ih fun d hd => h d (by simp [hd])

/-- A listed address reads as its cell. -/
theorem readByte_of_mem (hs : m.Pairwise fun x y => x.1 < y.1) (h : (a, v) ∈ m) : m.readByte a = v := by
  induction m with
  | nil => simp at h
  | cons c m ih =>
    unfold Memory.readByte
    rw [List.pairwise_cons] at hs
    rcases List.mem_cons.mp h with rfl | h
    · simp
    · rw [if_neg (Nat.ne_of_lt (hs.1 _ h))]
      exact ih hs.2 h

theorem mem_putCell {c : Host.Cell} (h : c ∈ m.putCell a v) : c = (a, v) ∨ c ∈ m := by
  unfold Memory.putCell at h
  split at h
  · exact .inr h
  · simpa using h

theorem readByte_putCell_ne (h : b ≠ a) : (m.putCell a v).readByte b = m.readByte b := by
  unfold Memory.putCell
  split
  · rfl
  · simp [Memory.readByte, Ne.symm h]

theorem readByte_putCell_same (h : ∀ c ∈ m, c.1 ≠ a) : (m.putCell a v).readByte a = v := by
  unfold Memory.putCell
  split
  · rename_i hv
    rw [readByte_of_absent h, hv]
  · simp [Memory.readByte]

/-- A write leaves every other address alone. -/
theorem readByte_writeByte_ne (h : b ≠ a) : (m.writeByte a v).readByte b = m.readByte b := by
  induction m with
  | nil => simp [Memory.writeByte, readByte_putCell_ne h]
  | cons c m ih =>
    unfold Memory.writeByte
    split
    · simp [Memory.readByte, ih]
    · split
      · rename_i hk
        rw [readByte_putCell_ne h]
        simp [Memory.readByte, hk, Ne.symm h]
      · rw [readByte_putCell_ne h]

/-- A read after a write to the same address gives the value written. -/
theorem readByte_writeByte_same (hs : m.Pairwise fun x y => x.1 < y.1) : (m.writeByte a v).readByte a = v := by
  induction m with
  | nil => exact readByte_putCell_same (by simp)
  | cons c m ih =>
    rw [List.pairwise_cons] at hs
    unfold Memory.writeByte
    split
    · rename_i hk
      simp [Memory.readByte, Nat.ne_of_lt hk, ih hs.2]
    · split
      · rename_i hk
        exact readByte_putCell_same fun d hd => Nat.ne_of_gt (by have := hs.1 d hd; omega)
      · refine readByte_putCell_same fun d hd => Nat.ne_of_gt ?_
        rcases List.mem_cons.mp hd with rfl | hd
        · simp only; omega
        · have := hs.1 d hd; omega

theorem mem_writeByte {c : Host.Cell} (h : c ∈ m.writeByte a v) : c = (a, v) ∨ c ∈ m := by
  induction m with
  | nil => exact (mem_putCell h)
  | cons d m ih =>
    unfold Memory.writeByte at h
    split at h
    · rcases List.mem_cons.mp h with rfl | h
      · simp
      · rcases ih h with h | h <;> simp [h]
    · split at h
      · rcases mem_putCell h with h | h <;> simp [h]
      · exact mem_putCell h

theorem wf_nil : Memory.wf [] := by simp [Memory.wf]

theorem wf_putCell (hm : m.wf) (ha : a ≤ Config.addressCeiling) (hlt : ∀ c ∈ m, a < c.1) : (m.putCell a v).wf := by
  unfold Memory.putCell
  split
  · exact hm
  · rename_i hv
    refine ⟨List.pairwise_cons.mpr ⟨hlt, hm.1⟩, fun c hc => ?_⟩
    rcases List.mem_cons.mp hc with rfl | hc
    · exact ⟨ha, hv⟩
    · exact hm.2 c hc

/-- A write of one byte inside the data space keeps the canonical form. -/
theorem wf_writeByte (hm : m.wf) (ha : a ≤ Config.addressCeiling) : (m.writeByte a v).wf := by
  induction m with
  | nil => exact wf_putCell wf_nil ha (by simp)
  | cons c m ih =>
    have hp := List.pairwise_cons.mp hm.1
    have hrest : Memory.wf m := ⟨hp.2, fun d hd => hm.2 d (by simp [hd])⟩
    unfold Memory.writeByte
    split
    · rename_i hk
      have hw := ih hrest
      refine ⟨List.pairwise_cons.mpr ⟨fun d hd => ?_, hw.1⟩, fun d hd => ?_⟩
      · rcases mem_writeByte hd with rfl | hd
        · exact hk
        · exact hp.1 d hd
      · rcases List.mem_cons.mp hd with rfl | hd
        · exact hm.2 _ (by simp)
        · exact hw.2 d hd
    · split
      · rename_i hk
        exact wf_putCell hrest ha fun d hd => by have := hp.1 d hd; omega
      · refine wf_putCell hm ha fun d hd => ?_
        rcases List.mem_cons.mp hd with rfl | hd
        · simp only; omega
        · have := hp.1 d hd; omega

/-- A write of `n` bytes inside the data space keeps the canonical form. -/
theorem wf_writeLE (hm : m.wf) (h : a + n ≤ Config.addressCeiling + 1) (x : BitVec (8 * n)) : (m.writeLE a n x).wf := by
  induction n with
  | zero => exact hm
  | succ n ih => exact wf_writeByte (ih (by omega) _) (by omega)

/-- The `n` bytes written read back as the bytes of the value (rule R37). -/
theorem readByte_writeLE_inside (hm : m.wf) (h : a + n ≤ Config.addressCeiling + 1) (x : BitVec (8 * n)) {k : Nat}
    (hk : k < n) : (m.writeLE a n x).readByte (a + k) = x.extractLsb' (8 * k) 8 := by
  induction n with
  | zero => omega
  | succ n ih =>
    unfold Memory.writeLE
    by_cases hkn : k = n
    · subst hkn
      exact readByte_writeByte_same (wf_writeLE hm (by omega) _).1
    · rw [readByte_writeByte_ne (by omega), ih (by omega) _ (by omega)]
      ext i hi
      simp only [BitVec.getElem_extractLsb', BitVec.getLsbD_setWidth]
      have : 8 * k + i < 8 * n := by omega
      simp [this]

/-- A write of `n` bytes leaves every other address alone (rule R37). -/
theorem readByte_writeLE_outside (x : BitVec (8 * n)) (h : b < a ∨ a + n ≤ b) :
    (m.writeLE a n x).readByte b = m.readByte b := by
  induction n with
  | zero => rfl
  | succ n ih =>
    unfold Memory.writeLE
    rw [readByte_writeByte_ne (by omega), ih _ (by omega)]

/-- The bytes of a value read, least significant first (rule R36). -/
theorem extract_readLE {k : Nat} (hk : k < n) : (m.readLE a n).extractLsb' (8 * k) 8 = m.readByte (a + k) := by
  induction n generalizing a k with
  | zero => omega
  | succ n ih =>
    unfold Memory.readLE
    ext i hi
    rw [BitVec.getElem_extractLsb', BitVec.getLsbD_append]
    cases k with
    | zero => simp [hi]
    | succ k =>
      have h8 : ¬ 8 * (k + 1) + i < 8 := by omega
      rw [if_neg h8, show 8 * (k + 1) + i - 8 = 8 * k + i by omega]
      have := ih (a := a + 1) (k := k) (by omega)
      rw [show a + (k + 1) = a + 1 + k by omega, ← this]
      simp [BitVec.getElem_extractLsb']

/-- A value written reads back (rule R41). -/
theorem readLE_writeLE_same (hm : m.wf) (h : a + n ≤ Config.addressCeiling + 1) (x : BitVec (8 * n)) :
    (m.writeLE a n x).readLE a n = x := by
  ext i hi
  have hk : i / 8 < n := by omega
  have h1 := extract_readLE (m := m.writeLE a n x) (a := a) hk
  rw [readByte_writeLE_inside hm h x hk] at h1
  have h2 := congrArg (fun y : Byte => y.getLsbD (i % 8)) h1
  simp only [BitVec.getLsbD_extractLsb', Nat.mod_lt _ (by omega : 8 > 0), decide_true, Bool.true_and,
    show 8 * (i / 8) + i % 8 = i by omega] at h2
  simpa [BitVec.getElem_eq_testBit_toNat, BitVec.getLsbD] using h2

/-- Two memories in canonical form that read alike everywhere are equal. -/
theorem eq_of_readByte_eq {m' : Memory} (hm : m.wf) (hm' : m'.wf) (h : ∀ a, m.readByte a = m'.readByte a) :
    m = m' := by
  have sub : ∀ {p q : Memory}, p.wf → q.wf → (∀ a, p.readByte a = q.readByte a) → ∀ c ∈ p, c ∈ q := by
    intro p q hp hq hpq c hc
    have hr := readByte_of_mem hp.1 (a := c.1) (v := c.2) hc
    by_contra hn
    by_cases hex : ∃ d ∈ q, d.1 = c.1
    · obtain ⟨d, hd, hda⟩ := hex
      have hd2 := readByte_of_mem hq.1 (a := d.1) (v := d.2) hd
      rw [hda, ← hpq, hr] at hd2
      exact hn (by rw [show c = d from Prod.ext hda.symm hd2]; exact hd)
    · have := readByte_of_absent (m := q) (a := c.1) fun d hd hda => hex ⟨d, hd, hda⟩
      rw [← hpq, hr] at this
      exact (hp.2 c hc).2 this
  have nodup : ∀ {p : Memory}, p.wf → p.Nodup := fun hp => hp.1.imp fun hlt he => by rw [he] at hlt; omega
  have perm : m.Perm m' :=
    (List.perm_ext_iff_of_nodup (nodup hm) (nodup hm')).mpr fun c =>
      ⟨sub hm hm' h c, sub hm' hm (fun a => (h a).symm) c⟩
  exact perm.eq_of_pairwise (fun x y _ _ hxy hyx => by omega) hm.1 hm'.1

end Sys2Proof.Machine
end

