-- ==== Sys2Proof/Laws/Ops.lean ====
section
/-! SUPPORT. What each shared operation can do, said once: the access primitives, the transfer, the branch, the load, the
store, and, assembled from them, the effect of any instruction. -/

namespace Sys2Proof.Machine

variable {s : State} {m m' : Memory} {ea : Int} {n : Nat} {kind : FaultKind}

/-! ## The access primitives (rules R33 to R37) -/

/-- The access widths of the hardware (rule R38). -/
abbrev AccessWidth (n : Nat) : Prop := n = 1 ∨ n = 2 ∨ n = 4

theorem accessFault_none_iff :
    accessFault ea n = none ↔ 0 ≤ ea ∧ ea ≤ (Config.addressCeiling : Int) ∧ ea % n = 0 := by
  unfold accessFault Config.addressCeiling
  split
  · simp only [reduceCtorEq, false_iff]; omega
  · split
    · simp only [reduceCtorEq, false_iff]; omega
    · simp only [true_iff]; omega

theorem accessFault_outOfBounds (h : ea < 0 ∨ (Config.addressCeiling : Int) < ea) :
    accessFault ea n = some .addressOutOfBounds := by
  unfold accessFault; rw [if_pos h]

theorem accessFault_misaligned (h0 : 0 ≤ ea) (h1 : ea ≤ (Config.addressCeiling : Int)) (h : ea % n ≠ 0) :
    accessFault ea n = some .addressMisaligned := by
  unfold accessFault; rw [if_neg (by omega), if_pos h]

/-- The last byte of an aligned access inside the data space is inside it too (rule R36). -/
theorem access_inside (hn : AccessWidth n) (h : accessFault ea n = none) :
    ea.toNat + n ≤ Config.addressCeiling + 1 := by
  obtain ⟨h0, h1, h2⟩ := accessFault_none_iff.mp h
  unfold Config.addressCeiling at *
  rcases hn with rfl | rfl | rfl <;> omega

theorem memRead_of_none (h : accessFault ea n = none) : memRead m ea n = .ok (m.readLE ea.toNat n) := by
  unfold memRead; rw [h]

theorem memRead_of_some (h : accessFault ea n = some kind) : memRead m ea n = .error kind := by
  unfold memRead; rw [h]

theorem memWrite_of_none {x : BitVec (8 * n)} (h : accessFault ea n = none) :
    memWrite m ea n x = .ok (m.writeLE ea.toNat n x) := by
  unfold memWrite; rw [h]

theorem memWrite_of_some {x : BitVec (8 * n)} (h : accessFault ea n = some kind) :
    memWrite m ea n x = .error kind := by
  unfold memWrite; rw [h]

/-- A write that is made is one of `writeLE` at an address the checks admit. -/
theorem memWrite_ok {x : BitVec (8 * n)} (h : memWrite m ea n x = .ok m') :
    accessFault ea n = none ∧ m' = m.writeLE ea.toNat n x := by
  unfold memWrite at h
  split at h
  · cases h
  · rename_i hn
    exact ⟨hn, (Except.ok.inj h).symm⟩

/-- A write that is made keeps the canonical form. -/
theorem wf_memWrite {x : BitVec (8 * n)} (hn : AccessWidth n) (hm : m.wf) (h : memWrite m ea n x = .ok m') : m'.wf := by
  obtain ⟨ha, rfl⟩ := memWrite_ok h
  exact wf_writeLE hm (access_inside hn ha) x

/-! ## Transfer, branch, load and store -/

variable {t : Word} {linked : State}

theorem transfer_aligned (h : t.toNat % 4 = 0) : transfer t linked s = .next (linked.setPc t) := by
  unfold transfer; rw [if_neg (by omega)]

theorem transfer_misaligned (h : t.toNat % 4 ≠ 0) :
    transfer t linked s = .next (s.raiseFault .addressMisaligned) := by
  unfold transfer; rw [if_pos h]

variable {cond : Word → Word → Bool} {rs1 rs2 rd : Reg} {imm : Int}

theorem branch_taken (h : cond (s.readReg rs1) (s.readReg rs2) = true) :
    branch cond rs1 rs2 t s = transfer t s s := by
  unfold branch; rw [if_pos h]

theorem branch_not_taken (h : cond (s.readReg rs1) (s.readReg rs2) = false) :
    branch cond rs1 rs2 t s = .next s.advance := by
  unfold branch; rw [if_neg (by simp [h])]

variable {ext : BitVec (8 * n) → Word}

theorem load_ok (h : accessFault (s.effectiveAddress rs1 imm) n = none) :
    load n ext rd rs1 imm s =
      .next (s.writeReg rd (ext (s.mem.readLE (s.effectiveAddress rs1 imm).toNat n))).advance := by
  unfold load; rw [memRead_of_none h]

theorem load_fault (h : accessFault (s.effectiveAddress rs1 imm) n = some kind) :
    load n ext rd rs1 imm s = .next (s.raiseFault kind) := by
  unfold load; rw [memRead_of_some h]

theorem store_ok (h : accessFault (s.effectiveAddress rs1 imm) n = none) :
    store n rs2 rs1 imm s =
      .next (State.advance { s with
        mem := s.mem.writeLE (s.effectiveAddress rs1 imm).toNat n ((s.readReg rs2).setWidth (8 * n)) }) := by
  unfold store; rw [memWrite_of_none h]

theorem store_fault (h : accessFault (s.effectiveAddress rs1 imm) n = some kind) :
    store n rs2 rs1 imm s = .next (s.raiseFault kind) := by
  unfold store; rw [memWrite_of_some h]

/-! ## The effect of any instruction -/

/-- What an instruction can do, `t` the state it answers. -/
inductive Effect (s : State) : State → Prop where
  /-- One register written (register 0 for a branch not taken), the pc advanced. -/
  | write (rd : Reg) (v : Word) : Effect s (s.writeReg rd v).advance
  /-- One register written (register 0 for a branch), the pc at an aligned target. -/
  | jump (rd : Reg) (v target : Word) (h : target.toNat % 4 = 0) : Effect s ((s.writeReg rd v).setPc target)
  /-- An access that the checks admit made, the pc advanced. -/
  | store (ea : Int) (n : Nat) (x : BitVec (8 * n)) (hn : AccessWidth n) (h : accessFault ea n = none) :
      Effect s (State.advance { s with mem := s.mem.writeLE ea.toNat n x })
  /-- A fault taken. -/
  | fault (kind : FaultKind) : Effect s (s.raiseFault kind)

theorem effect_writeResult (rd : Reg) (v : Word) : ∃ u, writeResult rd v s = .next u ∧ Effect s u :=
  ⟨_, rfl, .write rd v⟩

theorem effect_transfer (rd : Reg) (v t : Word) : ∃ u, transfer t (s.writeReg rd v) s = .next u ∧ Effect s u := by
  by_cases h : t.toNat % 4 = 0
  · exact ⟨_, transfer_aligned h, .jump rd v t h⟩
  · exact ⟨_, transfer_misaligned h, .fault _⟩

theorem effect_branch (cond : Word → Word → Bool) (rs1 rs2 : Reg) (t : Word) :
    ∃ u, branch cond rs1 rs2 t s = .next u ∧ Effect s u := by
  cases h : cond (s.readReg rs1) (s.readReg rs2)
  · exact ⟨_, branch_not_taken h, .write 0 0#32⟩
  · rw [branch_taken h]; exact effect_transfer 0 0#32 t

theorem effect_load (n : Nat) (ext : BitVec (8 * n) → Word) (rd rs1 : Reg) (imm : Int) :
    ∃ u, load n ext rd rs1 imm s = .next u ∧ Effect s u := by
  cases h : accessFault (s.effectiveAddress rs1 imm) n
  · exact ⟨_, load_ok h, .write _ _⟩
  · exact ⟨_, load_fault h, .fault _⟩

theorem effect_store {n : Nat} (hn : AccessWidth n) (rs2 rs1 : Reg) (imm : Int) :
    ∃ u, store n rs2 rs1 imm s = .next u ∧ Effect s u := by
  cases h : accessFault (s.effectiveAddress rs1 imm) n
  · exact ⟨_, store_ok h, .store _ _ _ hn h⟩
  · exact ⟨_, store_fault h, .fault _⟩

/-- Every instruction answers a next state, by one of the four effects. -/
theorem exec_effect (i : Instr) (s : State) : ∃ u, exec i s = .next u ∧ Effect s u := by
  cases i with
  | lui | addi | slti | sltiu | xori | ori | andi | slli | srli | srai => exact effect_writeResult _ _
  | add | sub | sll | slt | sltu | xor | srl | sra | or | and => exact effect_writeResult _ _
  | jal | jalr => exact effect_transfer _ _ _
  | beq | bne | blt | bge | bltu | bgeu => exact effect_branch _ _ _ _
  | lb | lh | lw | lbu | lhu => exact effect_load _ _ _ _ _
  | sb | sh | sw => exact effect_store (by decide) _ _ _

/-- The effect behind a next state. -/
theorem effect_of_exec {i : Instr} {u : State} (h : exec i s = .next u) : Effect s u := by
  obtain ⟨v, hv, he⟩ := exec_effect i s
  rw [h] at hv
  cases hv
  exact he

end Sys2Proof.Machine
end

