-- ==== Sys2Proof/Laws/PerInstr.lean ====
section
/-! SUPPORT. Per instruction: the word the encoder writes is accepted by the row of that instruction (rules R73 and R74). -/

namespace Sys2Proof

namespace Laws.EncodedRow

/-- Some row of the opcode map bears the instruction's mnemonic and accepts its word, at every address. -/
def Statement (i : Instr) : Prop :=
  ∀ pc : Word, ∃ r ∈ rows, r.mnemonic = i.mnemonic ∧ r.accepts (encode pc i) = true

variable (rd rs1 rs2 : Reg) (target : Word) (imm : Int) (upper shamt : Nat)

theorem of_mask {r : Row} {i : Instr} (hm : r ∈ rows) (hn : r.mnemonic = i.mnemonic)
    (h : ∀ pc, encode pc i &&& r.mask = r.pattern) : Statement i := fun pc =>
  ⟨r, hm, hn, beq_iff_eq.mpr (h pc)⟩

theorem lui : Statement (.lui rd upper) :=
  of_mask (r := ⟨"lui", 0x00000037, 0x0000007F, .u .lui⟩) (by simp [rows, rowsUpper]) rfl
    fun _ => (encU_mask ..).trans (by decide)

theorem jal : Statement (.jal rd target) :=
  of_mask (r := ⟨"jal", 0x0000006F, 0x0000007F, .j .jal⟩) (by simp [rows, rowsJump]) rfl
    fun _ => (encJ_mask ..).trans (by decide)

theorem jalr : Statement (.jalr rd rs1 imm) :=
  of_mask (r := ⟨"jalr", 0x00000067, 0x0000707F, .jr .jalr⟩) (by simp [rows, rowsJump]) rfl
    fun _ => (encI_mask ..).trans (by decide)

theorem beq : Statement (.beq rs1 rs2 target) :=
  of_mask (r := ⟨"beq", 0x00000063, 0x0000707F, .b .beq⟩) (by simp [rows, rowsBranch]) rfl
    fun _ => (encB_mask ..).trans (by decide)

theorem bne : Statement (.bne rs1 rs2 target) :=
  of_mask (r := ⟨"bne", 0x00001063, 0x0000707F, .b .bne⟩) (by simp [rows, rowsBranch]) rfl
    fun _ => (encB_mask ..).trans (by decide)

theorem blt : Statement (.blt rs1 rs2 target) :=
  of_mask (r := ⟨"blt", 0x00004063, 0x0000707F, .b .blt⟩) (by simp [rows, rowsBranch]) rfl
    fun _ => (encB_mask ..).trans (by decide)

theorem bge : Statement (.bge rs1 rs2 target) :=
  of_mask (r := ⟨"bge", 0x00005063, 0x0000707F, .b .bge⟩) (by simp [rows, rowsBranch]) rfl
    fun _ => (encB_mask ..).trans (by decide)

theorem bltu : Statement (.bltu rs1 rs2 target) :=
  of_mask (r := ⟨"bltu", 0x00006063, 0x0000707F, .b .bltu⟩) (by simp [rows, rowsBranch]) rfl
    fun _ => (encB_mask ..).trans (by decide)

theorem bgeu : Statement (.bgeu rs1 rs2 target) :=
  of_mask (r := ⟨"bgeu", 0x00007063, 0x0000707F, .b .bgeu⟩) (by simp [rows, rowsBranch]) rfl
    fun _ => (encB_mask ..).trans (by decide)

theorem lb : Statement (.lb rd rs1 imm) :=
  of_mask (r := ⟨"lb", 0x00000003, 0x0000707F, .l .lb⟩) (by simp [rows, rowsLoad]) rfl
    fun _ => (encI_mask ..).trans (by decide)

theorem lh : Statement (.lh rd rs1 imm) :=
  of_mask (r := ⟨"lh", 0x00001003, 0x0000707F, .l .lh⟩) (by simp [rows, rowsLoad]) rfl
    fun _ => (encI_mask ..).trans (by decide)

theorem lw : Statement (.lw rd rs1 imm) :=
  of_mask (r := ⟨"lw", 0x00002003, 0x0000707F, .l .lw⟩) (by simp [rows, rowsLoad]) rfl
    fun _ => (encI_mask ..).trans (by decide)

theorem lbu : Statement (.lbu rd rs1 imm) :=
  of_mask (r := ⟨"lbu", 0x00004003, 0x0000707F, .l .lbu⟩) (by simp [rows, rowsLoad]) rfl
    fun _ => (encI_mask ..).trans (by decide)

theorem lhu : Statement (.lhu rd rs1 imm) :=
  of_mask (r := ⟨"lhu", 0x00005003, 0x0000707F, .l .lhu⟩) (by simp [rows, rowsLoad]) rfl
    fun _ => (encI_mask ..).trans (by decide)

theorem sb : Statement (.sb rs2 rs1 imm) :=
  of_mask (r := ⟨"sb", 0x00000023, 0x0000707F, .s .sb⟩) (by simp [rows, rowsStore]) rfl
    fun _ => (encS_mask ..).trans (by decide)

theorem sh : Statement (.sh rs2 rs1 imm) :=
  of_mask (r := ⟨"sh", 0x00001023, 0x0000707F, .s .sh⟩) (by simp [rows, rowsStore]) rfl
    fun _ => (encS_mask ..).trans (by decide)

theorem sw : Statement (.sw rs2 rs1 imm) :=
  of_mask (r := ⟨"sw", 0x00002023, 0x0000707F, .s .sw⟩) (by simp [rows, rowsStore]) rfl
    fun _ => (encS_mask ..).trans (by decide)

theorem addi : Statement (.addi rd rs1 imm) :=
  of_mask (r := ⟨"addi", 0x00000013, 0x0000707F, .i .addi⟩) (by simp [rows, rowsAluImm]) rfl
    fun _ => (encI_mask ..).trans (by decide)

theorem slti : Statement (.slti rd rs1 imm) :=
  of_mask (r := ⟨"slti", 0x00002013, 0x0000707F, .i .slti⟩) (by simp [rows, rowsAluImm]) rfl
    fun _ => (encI_mask ..).trans (by decide)

theorem sltiu : Statement (.sltiu rd rs1 imm) :=
  of_mask (r := ⟨"sltiu", 0x00003013, 0x0000707F, .i .sltiu⟩) (by simp [rows, rowsAluImm]) rfl
    fun _ => (encI_mask ..).trans (by decide)

theorem xori : Statement (.xori rd rs1 imm) :=
  of_mask (r := ⟨"xori", 0x00004013, 0x0000707F, .i .xori⟩) (by simp [rows, rowsAluImm]) rfl
    fun _ => (encI_mask ..).trans (by decide)

theorem ori : Statement (.ori rd rs1 imm) :=
  of_mask (r := ⟨"ori", 0x00006013, 0x0000707F, .i .ori⟩) (by simp [rows, rowsAluImm]) rfl
    fun _ => (encI_mask ..).trans (by decide)

theorem andi : Statement (.andi rd rs1 imm) :=
  of_mask (r := ⟨"andi", 0x00007013, 0x0000707F, .i .andi⟩) (by simp [rows, rowsAluImm]) rfl
    fun _ => (encI_mask ..).trans (by decide)

theorem slli : Statement (.slli rd rs1 shamt) :=
  of_mask (r := ⟨"slli", 0x00001013, 0xFE00707F, .sh .slli⟩) (by simp [rows, rowsShiftImm]) rfl
    fun _ => (encR_mask ..).trans (by decide)

theorem srli : Statement (.srli rd rs1 shamt) :=
  of_mask (r := ⟨"srli", 0x00005013, 0xFE00707F, .sh .srli⟩) (by simp [rows, rowsShiftImm]) rfl
    fun _ => (encR_mask ..).trans (by decide)

theorem srai : Statement (.srai rd rs1 shamt) :=
  of_mask (r := ⟨"srai", 0x40005013, 0xFE00707F, .sh .srai⟩) (by simp [rows, rowsShiftImm]) rfl
    fun _ => (encR_mask ..).trans (by decide)

theorem add : Statement (.add rd rs1 rs2) :=
  of_mask (r := ⟨"add", 0x00000033, 0xFE00707F, .r .add⟩) (by simp [rows, rowsAluReg]) rfl
    fun _ => (encR_mask ..).trans (by decide)

theorem sub : Statement (.sub rd rs1 rs2) :=
  of_mask (r := ⟨"sub", 0x40000033, 0xFE00707F, .r .sub⟩) (by simp [rows, rowsAluReg]) rfl
    fun _ => (encR_mask ..).trans (by decide)

theorem sll : Statement (.sll rd rs1 rs2) :=
  of_mask (r := ⟨"sll", 0x00001033, 0xFE00707F, .r .sll⟩) (by simp [rows, rowsAluReg]) rfl
    fun _ => (encR_mask ..).trans (by decide)

theorem slt : Statement (.slt rd rs1 rs2) :=
  of_mask (r := ⟨"slt", 0x00002033, 0xFE00707F, .r .slt⟩) (by simp [rows, rowsAluReg]) rfl
    fun _ => (encR_mask ..).trans (by decide)

theorem sltu : Statement (.sltu rd rs1 rs2) :=
  of_mask (r := ⟨"sltu", 0x00003033, 0xFE00707F, .r .sltu⟩) (by simp [rows, rowsAluReg]) rfl
    fun _ => (encR_mask ..).trans (by decide)

theorem xor : Statement (.xor rd rs1 rs2) :=
  of_mask (r := ⟨"xor", 0x00004033, 0xFE00707F, .r .xor⟩) (by simp [rows, rowsAluReg]) rfl
    fun _ => (encR_mask ..).trans (by decide)

theorem srl : Statement (.srl rd rs1 rs2) :=
  of_mask (r := ⟨"srl", 0x00005033, 0xFE00707F, .r .srl⟩) (by simp [rows, rowsAluReg]) rfl
    fun _ => (encR_mask ..).trans (by decide)

theorem sra : Statement (.sra rd rs1 rs2) :=
  of_mask (r := ⟨"sra", 0x40005033, 0xFE00707F, .r .sra⟩) (by simp [rows, rowsAluReg]) rfl
    fun _ => (encR_mask ..).trans (by decide)

theorem or : Statement (.or rd rs1 rs2) :=
  of_mask (r := ⟨"or", 0x00006033, 0xFE00707F, .r .or⟩) (by simp [rows, rowsAluReg]) rfl
    fun _ => (encR_mask ..).trans (by decide)

theorem and : Statement (.and rd rs1 rs2) :=
  of_mask (r := ⟨"and", 0x00007033, 0xFE00707F, .r .and⟩) (by simp [rows, rowsAluReg]) rfl
    fun _ => (encR_mask ..).trans (by decide)

end Laws.EncodedRow

end Sys2Proof
end

