-- ==== Sys2Proof/Laws/Step.lean ====
section
/-! SUPPORT. What a step can do, said once. -/

namespace Sys2Proof.Machine

variable {s t : State} {e : Entry} {i : Instr} {kind : FaultKind}

theorem step_halt (hr : s.status = .running) (hf : s.fetchEntry = none) : step s = .next s.halt := by
  unfold step; rw [hr, hf]

theorem step_decodeFault (hr : s.status = .running) (hf : s.fetchEntry = some e)
    (hd : decodeEntry s.labels s.pc e = .error kind) : step s = .next (s.raiseFault kind) := by
  unfold step; rw [hr, hf]; simp only; rw [hd]

theorem step_decoded (hr : s.status = .running) (hf : s.fetchEntry = some e)
    (hd : decodeEntry s.labels s.pc e = .ok i) : step s = exec i s := by
  unfold step; rw [hr, hf]; simp only; rw [hd]

/-- A step that answers a next state was taken from `Running`: it halts, or the fetched element takes a fault of the
decode, or the decoded instruction has its effect. -/
theorem step_cases (h : step s = .next t) :
    s.status = .running ∧
      ((s.fetchEntry = none ∧ t = s.halt) ∨
        ∃ e, s.fetchEntry = some e ∧
          ((∃ kind, decodeEntry s.labels s.pc e = .error kind ∧ t = s.raiseFault kind) ∨
            ∃ i, decodeEntry s.labels s.pc e = .ok i ∧ exec i s = .next t)) := by
  unfold step at h
  split at h
  · rename_i hr
    refine ⟨hr, ?_⟩
    split at h
    · rename_i hf
      cases h
      exact .inl ⟨hf, rfl⟩
    · rename_i e hf
      refine .inr ⟨e, hf, ?_⟩
      split at h
      · rename_i kind hd
        cases h
        exact .inl ⟨kind, hd, rfl⟩
      · rename_i i hd
        exact .inr ⟨i, hd, h⟩
  · cases h
  · cases h

/-- A fault a step reports names the record or word at the pc, never `absent`. -/
theorem step_fault_offender (h : step s = .next t) {k : FaultKind} {p : Word} {o : Offender}
    (ht : t.status = .faulted k p o) : ∃ e, s.fetchEntry = some e ∧ o = .entry e := by
  obtain ⟨hr, ⟨-, rfl⟩ | ⟨e, hf, ⟨kind, -, rfl⟩ | ⟨i, -, hx⟩⟩⟩ := step_cases h
  · simp at ht
  · refine ⟨e, hf, ?_⟩
    simp only [raiseFault_status, Status.faulted.injEq] at ht
    rw [← ht.2.2, offender_of_fetch s e hf]
  · refine ⟨e, hf, ?_⟩
    cases effect_of_exec hx with
    | write => simp [hr] at ht
    | jump => simp [hr] at ht
    | store => simp [hr] at ht
    | fault kind =>
      simp only [raiseFault_status, Status.faulted.injEq] at ht
      rw [← ht.2.2, offender_of_fetch s e hf]

/-- The word placed at the fetch is the one the next step fetches. -/
@[simp] theorem withFetchWord_fetchEntry (s : State) (nbits w : Nat) :
    (s.withFetchWord nbits w).fetchEntry = some (.word (tableWord nbits w)) := by
  unfold State.withFetchWord; simp

@[simp] theorem withFetchWord_status (s : State) (nbits w : Nat) : (s.withFetchWord nbits w).status = .running := rfl
@[simp] theorem withFetchWord_pc (s : State) (nbits w : Nat) : (s.withFetchWord nbits w).pc = s.pc := rfl
@[simp] theorem withFetchWord_labels (s : State) (nbits w : Nat) : (s.withFetchWord nbits w).labels = s.labels := rfl

end Sys2Proof.Machine
end

