-- ==== Sys2Proof/Tests/Slice0.lean ====
section
/-! SUPPORT. The model's own tests: the checks of `WellFormed` on ill-formed terms, the decoding of a word of every
instruction, one step of every instruction, the record level, the resolver, and a state that meets the hypotheses of
each obligation. Expected results are those of `95_test_vectors.md`, by its section, unless a comment says otherwise. -/

namespace Sys2Proof.Tests

open Sys2Proof.Machine

/-! ## Helpers -/

/-- The reset state with a pc, some registers and a memory. -/
def st (pc : Word) (regs : List (Reg × Word)) (mem : Memory) : State :=
  regs.foldl (fun s p => s.writeReg p.1 p.2) { State.reset with pc := pc, mem := mem }

/-- One step of the word placed at the pc. -/
def stepOf (w pc : Word) (regs : List (Reg × Word)) (mem : Memory) : Result :=
  step ((st pc regs mem).withFetchWord 32 w.toNat)

/-- A register, the pc and the status of a next state. -/
def sees (r : Reg) : Result → Option (Word × Word × Status)
  | .next t => some (t.readReg r, t.pc, t.status)
  | .fault _ => none
  | .refused _ => none

/-- The memory, the pc and the status of a next state. -/
def seesMem : Result → Option (Memory × Word × Status)
  | .next t => some (t.mem, t.pc, t.status)
  | .fault _ => none
  | .refused _ => none

/-- The status of a fault at a word. -/
def faultedAt (kind : FaultKind) (pc w : Word) : Status := .faulted kind pc (.entry (.word w))

/-- The memory of the first table of section 2.6. -/
def mem26 : Memory := [(0x1000, 0x80), (0x1001, 0xFF), (0x1002, 0x7F), (0x1003, 0x01)]

/-- The memory of the first table of section 2.7. -/
def mem27 : Memory := [(0x1000, 0x11), (0x1001, 0x22), (0x1002, 0x33), (0x1003, 0x44)]

/-! ## WellFormed: what each check refuses (rules R66, R74, R6 and R63) -/

theorem test_wf_imm_above : (Instr.addi 10 11 2048).wf = false ∧ (Instr.addi 10 11 2047).wf = true := by decide
theorem test_wf_imm_below : (Instr.lw 10 11 (-2049)).wf = false ∧ (Instr.lw 10 11 (-2048)).wf = true := by decide
theorem test_wf_jalr_imm : (Instr.jalr 1 5 2048).wf = false := by decide
theorem test_wf_store_imm : (Instr.sw 10 11 (-2049)).wf = false := by decide
theorem test_wf_shamt : (Instr.slli 10 11 32).wf = false ∧ (Instr.srai 10 11 31).wf = true := by decide
theorem test_wf_upper : (Instr.lui 10 0x100000).wf = false ∧ (Instr.lui 10 0xFFFFF).wf = true := by decide
theorem test_encodable_jump_odd : (Instr.jal 1 1).encodable 0 = false := by decide
theorem test_encodable_jump_far :
    (Instr.jal 1 1048576).encodable 0 = false ∧ (Instr.jal 1 1048574).encodable 0 = true ∧
      (Instr.jal 1 0).encodable 1048576 = true ∧ (Instr.jal 1 0).encodable 1048578 = false := by decide
theorem test_encodable_branch_odd : (Instr.beq 1 2 0x11).encodable 0x10 = false := by decide
theorem test_encodable_branch_far :
    (Instr.bne 1 2 4096).encodable 0 = false ∧ (Instr.bne 1 2 4094).encodable 0 = true ∧
      (Instr.bgeu 1 2 0).encodable 4096 = true ∧ (Instr.bgeu 1 2 0).encodable 4098 = false := by decide
theorem test_program_wf_label_misaligned : Program.wf ⟨[.word 0x13], [("a", 2)]⟩ = false := by decide
theorem test_program_wf_label_past_the_end :
    Program.wf ⟨[.word 0x13], [("a", 4)]⟩ = false ∧ Program.wf ⟨[.word 0x13], [("a", 0)]⟩ = true := by decide
theorem test_program_wf_too_long (es : List Entry) (h : es.length = 2 ^ 30) : Program.wf ⟨es, []⟩ = false := by
  simp [Program.wf, Config.maxProgramLength, h]

/-! ## Decode: a word of every instruction, its fields written out in the order of rules R71 and R72 -/

theorem test_decode_lui : decodeWord 0b00010010001101000101_01010_0110111 0 = .ok (.lui 10 0x12345) := by decide
theorem test_decode_jal : decodeWord 0b0_0000001100_0_00000000_00001_1101111 0x8 = .ok (.jal 1 0x20) := by decide
theorem test_decode_jalr : decodeWord 0b000000000100_00101_000_00001_1100111 0x40 = .ok (.jalr 1 5 4) := by decide
theorem test_decode_beq : decodeWord 0b1_111111_01011_01010_000_1100_1_1100011 0x10 = .ok (.beq 10 11 8) := by decide
theorem test_decode_bne : decodeWord 0b1_111111_01011_01010_001_1100_1_1100011 0x10 = .ok (.bne 10 11 8) := by decide
theorem test_decode_blt : decodeWord 0b1_111111_01011_01010_100_1100_1_1100011 0x10 = .ok (.blt 10 11 8) := by decide
theorem test_decode_bge : decodeWord 0b1_111111_01011_01010_101_1100_1_1100011 0x10 = .ok (.bge 10 11 8) := by decide
theorem test_decode_bltu : decodeWord 0b1_111111_01011_01010_110_1100_1_1100011 0x10 = .ok (.bltu 10 11 8) := by decide
theorem test_decode_bgeu : decodeWord 0b1_111111_01011_01010_111_1100_1_1100011 0x10 = .ok (.bgeu 10 11 8) := by decide
theorem test_decode_lb : decodeWord 0b111111111111_01011_000_01010_0000011 0 = .ok (.lb 10 11 (-1)) := by decide
theorem test_decode_lh : decodeWord 0b000000000010_01011_001_01010_0000011 0 = .ok (.lh 10 11 2) := by decide
theorem test_decode_lw : decodeWord 0b100000000000_01011_010_01010_0000011 0 = .ok (.lw 10 11 (-2048)) := by decide
theorem test_decode_lbu : decodeWord 0b000000000001_01011_100_01010_0000011 0 = .ok (.lbu 10 11 1) := by decide
theorem test_decode_lhu : decodeWord 0b000000000011_01011_101_01010_0000011 0 = .ok (.lhu 10 11 3) := by decide
theorem test_decode_sb : decodeWord 0b1111111_01010_00010_000_11111_0100011 0 = .ok (.sb 10 2 (-1)) := by decide
theorem test_decode_sh : decodeWord 0b0000000_01010_01011_001_00011_0100011 0 = .ok (.sh 10 11 3) := by decide
theorem test_decode_sw : decodeWord 0b1111111_01010_01011_010_11100_0100011 0 = .ok (.sw 10 11 (-4)) := by decide
theorem test_decode_addi : decodeWord 0b011111111111_01011_000_01010_0010011 0 = .ok (.addi 10 11 2047) := by decide
theorem test_decode_slti : decodeWord 0b100000000000_01011_010_01010_0010011 0 = .ok (.slti 10 11 (-2048)) := by decide
theorem test_decode_sltiu : decodeWord 0b111111111111_01011_011_01010_0010011 0 = .ok (.sltiu 10 11 (-1)) := by decide
theorem test_decode_xori : decodeWord 0b111111111111_01011_100_01010_0010011 0 = .ok (.xori 10 11 (-1)) := by decide
theorem test_decode_ori : decodeWord 0b011111111111_01011_110_01010_0010011 0 = .ok (.ori 10 11 2047) := by decide
theorem test_decode_andi : decodeWord 0b100000000000_01011_111_01010_0010011 0 = .ok (.andi 10 11 (-2048)) := by decide
theorem test_decode_slli : decodeWord 0b0000000_00100_01011_001_01010_0010011 0 = .ok (.slli 10 11 4) := by decide
theorem test_decode_srli : decodeWord 0b0000000_11111_01011_101_01010_0010011 0 = .ok (.srli 10 11 31) := by decide
theorem test_decode_srai : decodeWord 0b0100000_00100_01011_101_01010_0010011 0 = .ok (.srai 10 11 4) := by decide
theorem test_decode_add : decodeWord 0b0000000_01100_01011_000_01010_0110011 0 = .ok (.add 10 11 12) := by decide
theorem test_decode_sub : decodeWord 0b0100000_01100_01011_000_01010_0110011 0 = .ok (.sub 10 11 12) := by decide
theorem test_decode_sll : decodeWord 0b0000000_01100_01011_001_01010_0110011 0 = .ok (.sll 10 11 12) := by decide
theorem test_decode_slt : decodeWord 0b0000000_01100_01011_010_01010_0110011 0 = .ok (.slt 10 11 12) := by decide
theorem test_decode_sltu : decodeWord 0b0000000_01100_01011_011_01010_0110011 0 = .ok (.sltu 10 11 12) := by decide
theorem test_decode_xor : decodeWord 0b0000000_01100_01011_100_01010_0110011 0 = .ok (.xor 10 11 12) := by decide
theorem test_decode_srl : decodeWord 0b0000000_01100_01011_101_01010_0110011 0 = .ok (.srl 10 11 12) := by decide
theorem test_decode_sra : decodeWord 0b0100000_01100_01011_101_01010_0110011 0 = .ok (.sra 10 11 12) := by decide
theorem test_decode_or : decodeWord 0b0000000_01100_01011_110_01010_0110011 0 = .ok (.or 10 11 12) := by decide
theorem test_decode_and : decodeWord 0b0000000_01100_01011_111_01010_0110011 0 = .ok (.and 10 11 12) := by decide

/-- The scattered bits of the formats B and J, worked out from rule R72: a word with the one bit of the offset set. -/
theorem test_decode_scattered :
    decodeWord 0x000000E3 0 = .ok (.beq 0 0 0x800) ∧ decodeWord 0x02000063 0 = .ok (.beq 0 0 0x20) ∧
      decodeWord 0x0010006F 0 = .ok (.jal 0 0x800) ∧ decodeWord 0x0000106F 0 = .ok (.jal 0 0x1000) ∧
      decodeWord 0x0020006F 0 = .ok (.jal 0 2) ∧ decodeWord 0x8000006F 0 = .ok (.jal 0 0xFFF00000) := by decide

/-- Section 2.8: words that no row accepts. -/
theorem test_decode_illegal : ([0x00000000, 0xFFFFFFFF, 0x00000001, 0x00000017, 0x0000000F, 0x00000073, 0x00100073,
    0x00002063, 0x00003003, 0x00003023, 0x00001067, 0x02000033, 0x40001033, 0x02001013, 0x40001013] : List Word).all
      (fun w => decide (decodeWord w 0 = .error .unsupportedOperation)) = true := by decide

/-- Section 2.8: the two legal words of the table. -/
theorem test_decode_legal_corner :
    decodeWord 0x00000013 0 = .ok (.addi 0 0 0) ∧ decodeWord 0x40005013 0 = .ok (.srai 0 0 0) := by decide

/-- Sections 2.2 to 2.7: the words the spec gives for these records, from the encoder. -/
theorem test_encode :
    encode 0x14 (.jal 1 0x14) = 0x000000EF ∧ encode 0x10 (.jal 0 4) = 0xFF5FF06F ∧
      encode 0 (.beq 0 0 0xFFFFFFFC) = 0xFE000EE3 ∧ encode 0 (.jalr 10 10 (-3)) = 0xFFD50567 ∧
      encode 0 (.sw 10 11 (-4)) = 0xFEA5AE23 ∧ encode 0 (.lui 0 0xFFFFF) = 0xFFFFF037 ∧
      encode 0 (.srai 10 11 31) = 0x41F5D513 ∧ encode 0 (.sub 10 10 10) = 0x40A50533 := by decide

/-- The decoder of an opcode-table row, and a row longer than an instruction. -/
theorem test_decodeTableWord :
    decodeTableWord 32 0x12345537 = some (.lui 10 0x12345) ∧ decodeTableWord 32 0 = none ∧
      decodeTableWord 40 0x12345537 = none := by decide

/-! ## One step of every instruction -/

/-- Section 2.1. -/
theorem test_lui : sees 10 (stepOf 0x12345537 0 [] []) = some (0x12345000, 4, .running) ∧
    sees 10 (stepOf 0xFFFFF537 0 [] []) = some (0xFFFFF000, 4, .running) ∧
    sees 0 (stepOf 0x00001037 0 [] []) = some (0, 4, .running) := by decide

/-- Section 2.2. -/
theorem test_jal : sees 1 (stepOf 0x018000EF 8 [] []) = some (0xC, 0x20, .running) ∧
    sees 1 (stepOf 0x002000EF 0x100 [(1, 0x55)] []) =
      some (0x55, 0x100, faultedAt .addressMisaligned 0x100 0x002000EF) := by decide

/-- Section 2.2: the low bit cleared, the old base used, the sum wrapped. -/
theorem test_jalr : sees 1 (stepOf 0x005280E7 0x40 [(5, 0x100)] []) = some (0x44, 0x104, .running) ∧
    sees 1 (stepOf 0x000080E7 0x40 [(1, 0x80)] []) = some (0x44, 0x80, .running) ∧
    sees 1 (stepOf 0x004280E7 0x40 [(5, 0xFFFFFFFC)] []) = some (0x44, 0, .running) := by decide

/-- Section 2.2. -/
theorem test_jalr_misaligned : sees 1 (stepOf 0x003280E7 0x40 [(5, 0x100), (1, 0x77)] []) =
    some (0x77, 0x40, faultedAt .addressMisaligned 0x40 0x003280E7) := by decide

/-- A row of the branch table of section 2.3: the pc after the six branches at pc 10 to 8. -/
def branchRow (a b : Word) : List (Option (Word × Word × Status)) :=
  [0xFEB50CE3, 0xFEB51CE3, 0xFEB54CE3, 0xFEB55CE3, 0xFEB56CE3, 0xFEB57CE3].map fun w =>
    sees 10 (stepOf w 0x10 [(10, a), (11, b)] [])

/-- The pc after, from the letters T and N of the table. -/
def branchGoes (a : Word) (taken : List Bool) : List (Option (Word × Word × Status)) :=
  taken.map fun t => some (a, if t then 8 else 0x14, .running)

/-- Section 2.3: `beq`, `bne`, `blt`, `bge`, `bltu`, `bgeu` on equal operands. -/
theorem test_branches_equal :
    branchRow 0x80000000 0x80000000 = branchGoes 0x80000000 [true, false, false, true, false, true] := by decide

/-- Section 2.3: the document's distinguishing case. -/
theorem test_branches_signs_differ :
    branchRow 0xFFFFFFFF 1 = branchGoes 0xFFFFFFFF [false, true, true, false, false, true] := by decide

/-- Section 2.3: the same operands, exchanged. -/
theorem test_branches_exchanged :
    branchRow 1 0xFFFFFFFF = branchGoes 1 [false, true, false, true, true, false] := by decide

/-- Section 2.3: a misaligned target faults when taken only; a target wraps. -/
theorem test_branch_targets :
    sees 0 (stepOf 0x00000163 0x10 [] []) = some (0, 0x10, faultedAt .addressMisaligned 0x10 0x00000163) ∧
    sees 0 (stepOf 0x00001163 0x10 [] []) = some (0, 0x14, .running) ∧
    sees 0 (stepOf 0xFE000EE3 0 [] []) = some (0, 0xFFFFFFFC, .running) := by decide

/-- A row of the ALU tables: `a0` after each of the words, all of them at pc 0 with these operands. -/
def aluRow (words : List Word) (a1 a2 : Word) : List (Option (Word × Word × Status)) :=
  words.map fun w => sees 10 (stepOf w 0 [(11, a1), (12, a2)] [])

/-- `a0` after, with the pc advanced. -/
def aluGives (values : List Word) : List (Option (Word × Word × Status)) := values.map fun v => some (v, 4, .running)

/-- Section 2.4: `addi`, `slti`, `sltiu`, `xori`, `ori`, `andi` with -1. -/
theorem test_alu_imm_minus_one :
    aluRow [0xFFF58513, 0xFFF5A513, 0xFFF5B513, 0xFFF5C513, 0xFFF5E513, 0xFFF5F513] 0x80000000 0 =
      aluGives [0x7FFFFFFF, 1, 1, 0x7FFFFFFF, 0xFFFFFFFF, 0x80000000] := by decide

/-- Section 2.4: the same six with -2048. -/
theorem test_alu_imm_least :
    aluRow [0x80058513, 0x8005A513, 0x8005B513, 0x8005C513, 0x8005E513, 0x8005F513] 0x12345678 0 =
      aluGives [0x12344E78, 0, 1, 0xEDCBAE78, 0xFFFFFE78, 0x12345000] := by decide

/-- Section 2.4: `slli`, `srli`, `srai` by 31 and by 4. -/
theorem test_shift_imm :
    aluRow [0x01F59513, 0x01F5D513, 0x41F5D513] 0x80000001 0 = aluGives [0x80000000, 1, 0xFFFFFFFF] ∧
    aluRow [0x00459513, 0x0045D513, 0x4045D513] 0x12345678 0 = aluGives [0x23456780, 0x01234567, 0x01234567] := by
  decide

/-- Section 2.4: the destination is the source; register 0 discards the result. -/
theorem test_addi_same_and_zero : sees 10 (stepOf 0x00150513 0 [(10, 7)] []) = some (8, 4, .running) ∧
    sees 0 (stepOf 0x00558013 0 [(11, 1)] []) = some (0, 4, .running) := by decide

/-- Section 2.5: `add`, `sub`, `slt`, `sltu`, `xor`, `or`, `and`. -/
theorem test_alu_reg :
    aluRow [0x00C58533, 0x40C58533, 0x00C5A533, 0x00C5B533, 0x00C5C533, 0x00C5E533, 0x00C5F533] 0xFFFFFFFF 1 =
      aluGives [0, 0xFFFFFFFE, 1, 0, 0xFFFFFFFE, 0xFFFFFFFF, 1] := by decide

/-- Section 2.5: the same seven. -/
theorem test_alu_reg_signs :
    aluRow [0x00C58533, 0x40C58533, 0x00C5A533, 0x00C5B533, 0x00C5C533, 0x00C5E533, 0x00C5F533] 1 0xFFFFFFFF =
      aluGives [0, 2, 0, 1, 0xFFFFFFFE, 0xFFFFFFFF, 1] := by decide

/-- Section 2.5: `sll`, `srl`, `sra` by a register whose amount is 33, and by 31. -/
theorem test_shift_reg :
    aluRow [0x00C59533, 0x00C5D533, 0x40C5D533] 0x80000001 0x21 = aluGives [2, 0x40000000, 0xC0000000] ∧
    aluRow [0x00C59533, 0x00C5D533, 0x40C5D533] 0x80000001 0xFFFFFFFF = aluGives [0x80000000, 1, 0xFFFFFFFF] := by
  decide

/-- Section 2.5: the destination is the amount register. -/
theorem test_sll_same : sees 10 (stepOf 0x00A59533 0 [(10, 4), (11, 1)] []) = some (0x10, 4, .running) := by decide

/-- A load of section 2.6 from the memory of its first table, with `a1 = 1000`. -/
def loadRow (words : List Word) : List (Option (Word × Word × Status)) :=
  words.map fun w => sees 10 (stepOf w 0 [(11, 0x1000)] mem26)

/-- Section 2.6: `lb`, `lbu`, `lh`, `lhu`, `lw` at offset 0. -/
theorem test_loads : loadRow [0x00058503, 0x0005C503, 0x00059503, 0x0005D503, 0x0005A503] =
    aluGives [0xFFFFFF80, 0x80, 0xFFFFFF80, 0xFF80, 0x017FFF80] := by decide

/-- Section 2.6: an upper halfword, and bytes never written. -/
theorem test_loads_offset : loadRow [0x00259503, 0x0025D503, 0x0045A503, 0xFFF58503] = aluGives [0x17F, 0x17F, 0, 0] := by
  decide

/-- Section 2.6: misaligned, out of bounds above and below, bounds before alignment; the last byte of the space. -/
theorem test_load_faults :
    sees 10 (stepOf 0x00159503 0 [(11, 0x1000)] mem26) = some (0, 0, faultedAt .addressMisaligned 0 0x00159503) ∧
    sees 0 (stepOf 0x0015A003 0 [(11, 0x1000)] mem26) = some (0, 0, faultedAt .addressMisaligned 0 0x0015A003) ∧
    sees 10 (stepOf 0x00158503 0 [(11, 0xFFFFFFFF)] []) = some (0, 0, faultedAt .addressOutOfBounds 0 0x00158503) ∧
    sees 10 (stepOf 0xFFF5A503 0 [] []) = some (0, 0, faultedAt .addressOutOfBounds 0 0xFFF5A503) ∧
    sees 10 (stepOf 0x00058503 0 [(11, 0xFFFFFFFF)] []) = some (0, 4, .running) := by decide

/-- A store of section 2.7 into the memory of its first table, with `a0 = DEADBEEF` and `a1 = 1000`. -/
def storeRow (w : Word) : Option (Memory × Word × Status) :=
  seesMem (stepOf w 0 [(10, 0xDEADBEEF), (11, 0x1000)] mem27)

/-- Section 2.7. -/
theorem test_sb :
    storeRow 0x00A581A3 = some ([(0x1000, 0x11), (0x1001, 0x22), (0x1002, 0x33), (0x1003, 0xEF)], 4, .running) ∧
    seesMem (stepOf 0x00A58023 0 [(10, 0x1FF), (11, 0xFFFFFFFF)] []) = some ([(0xFFFFFFFF, 0xFF)], 4, .running) ∧
    seesMem (stepOf 0x00A580A3 0 [(10, 0x1FF), (11, 0xFFFFFFFF)] []) =
      some ([], 0, faultedAt .addressOutOfBounds 0 0x00A580A3) := by decide

/-- Section 2.7. -/
theorem test_sh :
    storeRow 0x00A59123 = some ([(0x1000, 0x11), (0x1001, 0x22), (0x1002, 0xEF), (0x1003, 0xBE)], 4, .running) ∧
    storeRow 0x00A591A3 = some (mem27, 0, faultedAt .addressMisaligned 0 0x00A591A3) := by decide

/-- Section 2.7: little-endian; storing `x0` over a word leaves the canonical empty memory; the base is the source. -/
theorem test_sw :
    storeRow 0x00A5A023 = some ([(0x1000, 0xEF), (0x1001, 0xBE), (0x1002, 0xAD), (0x1003, 0xDE)], 4, .running) ∧
    storeRow 0x0005A023 = some ([], 4, .running) ∧
    seesMem (stepOf 0x00B5A023 0 [(11, 0x2000)] []) = some ([(0x2001, 0x20)], 4, .running) := by decide

/-! ## The step around an instruction -/

/-- Section 2.9, the last row: no instructions, and the first step HALTs at pc 0. -/
theorem test_reset_halts : sees 0 (step State.reset) = some (0, 0, .halted) := by decide

/-- Section 2.8: an illegal word faults with nothing else changed. -/
theorem test_illegal_word_faults :
    sees 0 (stepOf 0xFFFFFFFF 0 [] []) = some (0, 0, faultedAt .unsupportedOperation 0 0xFFFFFFFF) := by decide

/-- The step runs the placed word, at reset and at a pc past the end of the program. -/
theorem test_withFetchWord :
    sees 10 (step (State.reset.withFetchWord 32 0x00550513)) = some (5, 4, .running) ∧
    (State.withFetchWord { State.reset with pc := 8 } 32 0x00550513).program = [.word 0, .word 0, .word 0x00550513] := by
  decide

/-! ## The record level (sections 2.1 to 2.8) -/

/-- A record, against a table with the one label `t` at 8. -/
def recOf (op : String) (args : List String) : Except FaultKind Instr := decodeRecord [("t", 8)] ⟨op, args⟩

/-- One record of each shape, and the two spellings of a register. -/
theorem test_records :
    recOf "lui" ["a0", "0x12345"] = .ok (.lui 10 0x12345) ∧ recOf "jal" ["ra", "t"] = .ok (.jal 1 8) ∧
    recOf "jalr" ["ra", "4(t0)"] = .ok (.jalr 1 5 4) ∧ recOf "bltu" ["x10", "a1", "t"] = .ok (.bltu 10 11 8) ∧
    recOf "lw" ["a0", "-2048(x11)"] = .ok (.lw 10 11 (-2048)) ∧ recOf "sb" ["a0", "-1(sp)"] = .ok (.sb 10 2 (-1)) ∧
    recOf "addi" ["a0", "a1", "0x7ff"] = .ok (.addi 10 11 2047) ∧ recOf "srai" ["a0", "a1", "31"] = .ok (.srai 10 11 31) ∧
    recOf "sub" ["t6", "s11", "zero"] = .ok (.sub 31 27 0) := by decide

/-- `UnsupportedOperation`. -/
theorem test_record_unsupported :
    recOf "mul" ["a0", "a1", "a2"] = .error .unsupportedOperation ∧
    recOf "ADD" ["a0", "a1", "a2"] = .error .unsupportedOperation ∧
    recOf "mv" ["a0", "a1"] = .error .unsupportedOperation ∧ recOf "x:" ["a", "b"] = .error .unsupportedOperation ∧
    recOf "foo" ["q0", "r9", "zz"] = .error .unsupportedOperation := by decide

/-- `SyntaxError`. -/
theorem test_record_syntax :
    recOf "add" ["q0", "a1"] = .error .syntaxError ∧ recOf "lui" ["a0", "1", "2"] = .error .syntaxError ∧
    recOf "jal" ["ra", "a", "b"] = .error .syntaxError ∧ recOf "jalr" ["ra", "t0", "4"] = .error .syntaxError := by decide

/-- `UnknownRegister`. -/
theorem test_record_register :
    recOf "addi" ["a0", "x32", "1"] = .error .unknownRegister ∧ recOf "addi" ["a0", "x01", "1"] = .error .unknownRegister ∧
    recOf "addi" ["q0", "a1", "zz"] = .error .unknownRegister ∧ recOf "lw" ["q0", "5000(a1)"] = .error .unknownRegister ∧
    recOf "lw" ["a0", "0(q1)"] = .error .unknownRegister ∧ recOf "add" ["a0", "a1", "5"] = .error .unknownRegister := by
  decide

/-- `ImmediateParseError` and `UnresolvedLabel`. -/
theorem test_record_immediate :
    recOf "addi" ["a0", "a1", "2048"] = .error .immediateParseError ∧
    recOf "addi" ["a0", "a1", "08"] = .error .immediateParseError ∧
    recOf "addi" ["a0", "a1", "5x"] = .error .immediateParseError ∧
    recOf "slli" ["a0", "a1", "32"] = .error .immediateParseError ∧
    recOf "lui" ["a0", "-1"] = .error .immediateParseError ∧ recOf "lw" ["a0", "5000(q1)"] = .error .immediateParseError ∧
    recOf "lw" ["a0", "0(a1"] = .error .immediateParseError ∧ recOf "jalr" ["ra", "(t0)"] = .error .immediateParseError ∧
    recOf "beq" ["a0", "a1", "8"] = .error .unresolvedLabel := by decide

/-- The forms of a literal, worked out from the grammar of rule R66. -/
theorem test_literals :
    literalValue "0".toList = some 0 ∧ literalValue "-0x7fF".toList = some (-2047) ∧
    literalValue "+0B101".toList = some 5 ∧ literalValue "0o17".toList = some 15 ∧
    literalValue "2047".toList = some 2047 ∧ literalValue "".toList = none ∧ literalValue "-".toList = none ∧
    literalValue "0x".toList = none ∧ literalValue "00".toList = none ∧ literalValue "0b2".toList = none ∧
    literalValue "--1".toList = none := by decide

/-! ## The resolver (section 2.9) -/

/-- T1. -/
def linesT1 : List (List String) :=
  [["start:"], ["addi", "a0", "a0", "1"], ["mid:"], ["end:"], ["jal", "x0", "over"], ["over:"], ["addi", "a0", "a0", "1"]]

/-- P7: an undefined label. -/
def linesP7 : List (List String) := [["addi", "a0", "zero", "5"], ["jal", "zero", "nowhere"]]

/-- The program and the labels of a loaded state. -/
def loaded : Result → Option (List Entry × LabelTable × Status)
  | .next t => some (t.program, t.labels, t.status)
  | .fault _ => none
  | .refused _ => none

theorem test_resolve_T1 : loaded (loadLines linesT1) = some
    ([.record ⟨"addi", ["a0", "a0", "1"]⟩, .record ⟨"jal", ["x0", "over"]⟩, .record ⟨"addi", ["a0", "a0", "1"]⟩],
      [("start", 0), ("mid", 4), ("end", 4), ("over", 8)], .running) := by decide

theorem test_resolve_duplicate :
    loaded (loadLines [["a:"], ["a:"], ["addi", "a0", "a0", "1"]]) =
      some ([], [], .faulted .duplicateLabel 0 (.label "a")) := by decide

theorem test_resolve_trailing :
    loaded (loadLines [["addi", "a0", "a0", "1"], ["end:"]]) = some ([], [], .faulted .syntaxError 0 (.label "end")) := by
  decide

theorem test_resolve_bad_lines : ([["nop"], ["j", "loop"], ["add", "a0", "a1", "a2", "a3"],
    ["loop:", "addi", "a0", "a0", "1"], [":"]]).all (fun line => decide (loaded (loadLines [line]) =
      some ([], [], .faulted .syntaxError 0 (.line line)))) = true := by decide

theorem test_resolve_undefined_label :
    loaded (loadLines linesP7) = some ([], [], .faulted .unresolvedLabel 0 (.reference "nowhere" 4)) := by decide

theorem test_resolve_unknown_opcode :
    loaded (loadLines [["mv", "a0", "a1"]]) = some ([.record ⟨"mv", ["a0", "a1"]⟩], [], .running) := by decide

theorem test_resolve_empty : loaded (loadLines []) = some ([], [], .running) := by decide

/-! ## Witnesses: a state and operands that meet the hypotheses of each obligation, each clause at a boundary -/

/-- `s` is the reset state with the word `addi a0, a0, 5` placed. -/
def placed : State := State.reset.withFetchWord 32 0x00550513

theorem inv_placed : placed.Inv :=
  ⟨by decide, by decide, by decide, by decide, (fun h => by cases h), (fun _ _ _ h => by cases h)⟩

theorem witness_FirstStepFetchesTheFirstInstruction : State.reset.program.length = 0 := by decide

theorem witness_LoadedStateMeetsTheInvariant :
    (∃ s, loadLines linesT1 = .next s) ∧ (∃ s, loadLines linesP7 = .next s) ∧
      ∃ s, loadWords [0x00550513, 0xFFFFFFFF] = .next s := ⟨⟨_, rfl⟩, ⟨_, rfl⟩, _, rfl⟩

/-- A step with the invariant that executes, one that faults and one that halts. -/
theorem witness_StepKeepsTheInvariant :
    (placed.Inv ∧ ∃ t, step placed = .next t) ∧
    ((State.reset.withFetchWord 32 0).Inv ∧ ∃ t, step (State.reset.withFetchWord 32 0) = .next t) ∧
    State.reset.Inv ∧ ∃ t, step State.reset = .next t :=
  ⟨⟨inv_placed, _, rfl⟩,
    ⟨⟨by decide, by decide, by decide, by decide, (fun h => by cases h), (fun _ _ _ h => by cases h)⟩, _, rfl⟩,
    ⟨by decide, by decide, by decide, by decide, (fun h => by cases h), (fun _ _ _ h => by cases h)⟩, _, rfl⟩

/-- A state with a program of two records and a label, the second record not decodable. -/
def twoRecords : State :=
  { State.reset with program := [.record ⟨"jal", ["ra", "a"]⟩, .record ⟨"mv", ["a0", "a1"]⟩], labels := [("a", 4)] }

theorem witness_StepRunsTheDecodedInstruction :
    (placed.status = .running ∧ placed.program[placed.pc.toNat / 4]? = some (.word 0x00550513) ∧
      decodeEntry placed.labels placed.pc (.word 0x00550513) = .ok (.addi 10 10 5)) ∧
    twoRecords.status = .running ∧ twoRecords.program[twoRecords.pc.toNat / 4]? = some (.record ⟨"jal", ["ra", "a"]⟩) ∧
      decodeEntry twoRecords.labels twoRecords.pc (.record ⟨"jal", ["ra", "a"]⟩) = .ok (.jal 1 4) := by decide

theorem witness_StepTakesTheDecodeFault :
    let s := twoRecords.setPc 4
    s.status = .running ∧ s.program[s.pc.toNat / 4]? = some (.record ⟨"mv", ["a0", "a1"]⟩) ∧
      decodeEntry s.labels s.pc (.record ⟨"mv", ["a0", "a1"]⟩) = .error .unsupportedOperation := by decide

/-- The first pc past the program, and a step that halts. -/
theorem witness_HaltExactlyOutOfRange :
    ((placed.setPc 4).status = .running ∧ (placed.setPc 4).program.length ≤ (placed.setPc 4).pc.toNat / 4) ∧
    ∃ t, step (placed.setPc 4) = .next t ∧ t.status = .halted := ⟨by decide, _, rfl, rfl⟩

theorem witness_RunningStepIsDefined : State.reset.status = .running := rfl

theorem witness_NoStepFromATerminalStatus : State.reset.halt.status = .halted ∧
    (placed.raiseFault .addressMisaligned).status =
      .faulted .addressMisaligned 0 (.entry (.word 0x00550513)) := by decide

theorem witness_FaultsArePrecise :
    (∃ t, step (twoRecords.setPc 4) = .next t ∧
      t.status = .faulted .unsupportedOperation 4 (.entry (.record ⟨"mv", ["a0", "a1"]⟩))) ∧
    ∃ t, loadLines linesP7 = .next t ∧ t.status = .faulted .unresolvedLabel 0 (.reference "nowhere" 4) :=
  ⟨⟨_, rfl, rfl⟩, _, rfl, by decide⟩

/-- Two states that differ in a register that `add a0, a1, a2` does not read; a step that changes a register. -/
theorem witness_RegistersReadAndWritten :
    let s := st 0 [(11, 1), (12, 2)] []
    let s' := st 0 [(11, 1), (12, 2), (13, 9)] []
    (∃ t, exec (.add 10 11 12) s = .next t) ∧ Spec.dest (.add 10 11 12) ≠ some 11 ∧
      (∀ r ∈ Spec.sources (.add 10 11 12), s'.readReg r = s.readReg r) ∧ s'.pc = s.pc ∧ s'.mem = s.mem ∧
      s'.status = s.status ∧ s'.program = s.program ∧ s'.labels = s.labels ∧ s.status = .running ∧
      s'.readReg 13 ≠ s.readReg 13 ∧ ∃ t, step placed = .next t ∧ t.readReg 10 ≠ placed.readReg 10 :=
  ⟨⟨_, rfl⟩, by decide, by decide, by decide, by decide, by decide, by decide, by decide, by decide, by decide, _, rfl,
    by decide⟩

theorem witness_ProgramNeverChanges : ∃ t, step ((st 0 [] []).withFetchWord 32 0x00A02023) = .next t := ⟨_, rfl⟩

theorem witness_OnlyStoresChangeMemory : Spec.isStore (.lw 10 11 0) = false ∧
    ∃ t, exec (.lw 10 11 0) (st 0 [(11, 0x1000)] mem26) = .next t := ⟨rfl, _, rfl⟩

/-- A jump, and a branch that is not taken. -/
theorem witness_PcAfterAStep :
    (∃ t, step twoRecords = .next t ∧ t.status = .running ∧
      twoRecords.program[twoRecords.pc.toNat / 4]? = some (.record ⟨"jal", ["ra", "a"]⟩) ∧
      decodeEntry twoRecords.labels twoRecords.pc (.record ⟨"jal", ["ra", "a"]⟩) = .ok (.jal 1 4)) ∧
    let s := State.reset.withFetchWord 32 0x00001163
    ∃ t, step s = .next t ∧ t.status = .running ∧ s.program[s.pc.toNat / 4]? = some (.word 0x00001163) ∧
      decodeEntry s.labels s.pc (.word 0x00001163) = .ok (.bne 0 0 2) :=
  ⟨⟨_, rfl, by decide⟩, _, rfl, by decide⟩

/-- The misaligned targets `4n + 2`, `4n + 1` and `4n + 3` of a jump, of `jalr` and of a branch that is taken; a branch
that is not taken. -/
theorem witness_MisalignedTransferFaults :
    let s := st 0 [(5, 0x102)] []
    (Spec.transferTarget s (.jal 1 2) = some 2 ∧ (2 : Word).toNat % 4 ≠ 0) ∧
    (Spec.transferTarget s (.jal 1 0xFFFFFFFD) = some 0xFFFFFFFD ∧ (0xFFFFFFFD : Word).toNat % 4 ≠ 0) ∧
    (Spec.transferTarget s (.jalr 1 5 1) = some 0x102 ∧ (0x102 : Word).toNat % 4 ≠ 0) ∧
    (Spec.transferTarget s (.beq 0 0 7) = some 7 ∧ (7 : Word).toNat % 4 ≠ 0) ∧
    Spec.isBranch (.bne 0 0 2) = true ∧ Spec.transferTarget s (.bne 0 0 2) = none := by decide

/-- A mask and a pattern of the clauses `Spec.Decodes`, with a word that meets them, for every instruction: the word of
its decode test. -/
theorem witness_decodes : ([(0x12345537, 0x7F, 0x37), (0x018000EF, 0x7F, 0x6F), (0x004280E7, 0x707F, 0x67),
    (0xFEB50CE3, 0x707F, 0x63), (0xFEB51CE3, 0x707F, 0x1063), (0xFEB54CE3, 0x707F, 0x4063),
    (0xFEB55CE3, 0x707F, 0x5063), (0xFEB56CE3, 0x707F, 0x6063), (0xFEB57CE3, 0x707F, 0x7063),
    (0xFFF58503, 0x707F, 0x3), (0x00259503, 0x707F, 0x1003), (0x8005A503, 0x707F, 0x2003),
    (0x0015C503, 0x707F, 0x4003), (0x0035D503, 0x707F, 0x5003), (0xFEA10FA3, 0x707F, 0x23),
    (0x00A591A3, 0x707F, 0x1023), (0xFEA5AE23, 0x707F, 0x2023)] ++
    [(0x7FF58513, 0x707F, 0x13), (0x8005A513, 0x707F, 0x2013), (0xFFF5B513, 0x707F, 0x3013),
    (0xFFF5C513, 0x707F, 0x4013), (0x7FF5E513, 0x707F, 0x6013), (0x8005F513, 0x707F, 0x7013),
    (0x00459513, 0xFE00707F, 0x1013), (0x01F5D513, 0xFE00707F, 0x5013), (0x4045D513, 0xFE00707F, 0x40005013)] ++
    [(0x00C58533, 0xFE00707F, 0x33), (0x40C58533, 0xFE00707F, 0x40000033), (0x00C59533, 0xFE00707F, 0x1033),
    (0x00C5A533, 0xFE00707F, 0x2033), (0x00C5B533, 0xFE00707F, 0x3033), (0x00C5C533, 0xFE00707F, 0x4033),
    (0x00C5D533, 0xFE00707F, 0x5033), (0x40C5D533, 0xFE00707F, 0x40005033), (0x00C5E533, 0xFE00707F, 0x6033),
    (0x00C5F533, 0xFE00707F, 0x7033)] : List (Word × Word × Word)).all
      (fun row => row.1 &&& row.2.1 == row.2.2) = true := by decide

/-- Operand counts other than two and other than three, for `Spec.Record2` and `Spec.Record3`. -/
theorem witness_record_counts : (["a0"] : List String).length ≠ 2 ∧ (["a0", "1", "2"] : List String).length ≠ 2 ∧
    (["a0", "a1"] : List String).length ≠ 3 := by decide

/-- `lui` has no hypothesis on the machine: its words. -/
theorem witness_LuiLoadsTheUpperImmediate :
    (0xFFFFF537 : Word) &&& 0x7F = 0x37 ∧ (0x00001037 : Word) &&& 0x7F = 0x37 := by decide

/-- The last aligned address, and the misaligned one before it. -/
theorem witness_JalLinksAndJumps : (0x018000EF : Word) &&& 0x7F = 0x6F ∧
    (0xFFFFFFFC : Word).toNat % 4 = 0 ∧ (0xFFFFFFFB : Word).toNat % 4 ≠ 0 := by decide

/-- An aligned target by the cleared low bit and by the wrap, and a misaligned one. -/
theorem witness_JalrLinksAndJumps : (0x004280E7 : Word) &&& 0x707F = 0x67 ∧
    (Spec.jalrTarget (st 0 [(5, 0x100)] []) 5 5).toNat % 4 = 0 ∧
    (Spec.jalrTarget (st 0 [(5, 0xFFFFFFFC)] []) 5 4).toNat % 4 = 0 ∧
    (Spec.jalrTarget (st 0 [(5, 0x100)] []) 5 3).toNat % 4 ≠ 0 := by decide

/-- For each comparison, operands that meet it and operands that do not, at the ends of the range; targets. -/
theorem witness_branches :
    let s := st 0 [(5, 0xFFFFFFFF), (6, 0x80000000), (7, 0x7FFFFFFF)] []
    (s.readReg 5 = s.readReg 5 ∧ ¬ s.readReg 5 = s.readReg 6) ∧ (s.readReg 5 ≠ s.readReg 6 ∧ ¬ s.readReg 5 ≠ s.readReg 5) ∧
    ((s.readReg 6).toInt < (s.readReg 7).toInt ∧ ¬ (s.readReg 6).toInt < (s.readReg 6).toInt) ∧
    ((s.readReg 6).toInt ≥ (s.readReg 6).toInt ∧ ¬ (s.readReg 6).toInt ≥ (s.readReg 7).toInt) ∧
    ((s.readReg 0).toNat < (s.readReg 5).toNat ∧ ¬ (s.readReg 5).toNat < (s.readReg 5).toNat) ∧
    ((s.readReg 5).toNat ≥ (s.readReg 5).toNat ∧ ¬ (s.readReg 0).toNat ≥ (s.readReg 5).toNat) ∧
    (0xFFFFFFFC : Word).toNat % 4 = 0 ∧ (0xFFFFFFFE : Word).toNat % 4 ≠ 0 := by decide

/-- The shift amounts at both ends of their range. -/
theorem witness_ShiftImmediates : 0 ≤ 31 ∧ 31 ≤ 31 ∧ ¬ 32 ≤ 31 := by decide

/-- Effective addresses for a width `n`: the first and the last aligned one, the ones just outside on both sides, and
the last byte of the space, which is misaligned for `n` greater than 1. -/
theorem witness_accesses : ∀ n ∈ [1, 2, 4],
    let s := st 0 [(5, 0xFFFFFFFF), (6, BitVec.ofNat 32 (0x100000000 - n))] []
    s.mem.wf ∧ (Spec.InBounds (Spec.ea s 0 0) ∧ Spec.ea s 0 0 % n = 0) ∧
    (Spec.InBounds (Spec.ea s 6 0) ∧ Spec.ea s 6 0 % n = 0) ∧
    ¬ Spec.InBounds (Spec.ea s 0 (-1)) ∧ ¬ Spec.InBounds (Spec.ea s 5 1) ∧
    (n ≠ 1 → Spec.InBounds (Spec.ea s 5 0) ∧ Spec.ea s 5 0 % n ≠ 0) := by decide

/-- The last bytes of the space, and a state `u` that differs from the store's in another register and in the pc. -/
theorem witness_LoadAfterStoreReadsWhatWasStored :
    let s := st 0 [(5, 0xFFFFFFFC), (10, 0xDEADBEEF)] []
    let u := st 0x40 [(5, 0xFFFFFFFC)]
    s.mem.wf ∧
    (∃ t, exec (.sw 10 5 0) s = .next t ∧ t.status = .running ∧ (u t.mem).mem = t.mem ∧
      (u t.mem).readReg 5 = s.readReg 5) ∧
    (∃ t, exec (.sh 10 5 2) s = .next t ∧ t.status = .running ∧ (u t.mem).mem = t.mem ∧
      (u t.mem).readReg 5 = s.readReg 5) ∧
    ∃ t, exec (.sb 10 5 3) s = .next t ∧ t.status = .running ∧ (u t.mem).mem = t.mem ∧
      (u t.mem).readReg 5 = s.readReg 5 :=
  ⟨by decide, ⟨_, rfl, rfl, rfl, rfl⟩, ⟨_, rfl, rfl, rfl, rfl⟩, _, rfl, rfl, rfl, rfl⟩

theorem witness_SubwordAccessInTheContainingWord : mem26.wf ∧
    (0xFFFFFFFF ≤ 0xFFFFFFFF ∧ 0xFFFFFFFF % 1 = 0) ∧ (0xFFFFFFFE ≤ 0xFFFFFFFF ∧ 0xFFFFFFFE % 2 = 0) ∧
    (0xFFFFFFFC ≤ 0xFFFFFFFF ∧ 0xFFFFFFFC % 4 = 0) ∧ 31 < 32 := by decide

theorem witness_MemReadChecksThenReads :
    ¬ Spec.InBounds (-1) ∧ ¬ Spec.InBounds 0x100000000 ∧
    (Spec.InBounds 0xFFFFFFFF ∧ (0xFFFFFFFF : Int) % 2 ≠ 0 ∧ (0xFFFFFFFF : Int) % 4 ≠ 0) ∧
    (Spec.InBounds 0xFFFFFFFE ∧ (0xFFFFFFFE : Int) % 2 = 0) ∧ Spec.InBounds 0xFFFFFFFC ∧ (0xFFFFFFFC : Int) % 4 = 0 := by
  decide

theorem witness_MemWriteChecksThenWrites : mem27.wf ∧
    (¬ Spec.InBounds (-1) ∧ ¬ Spec.InBounds 0x100000000) ∧
    (Spec.InBounds 0xFFFFFFFD ∧ (0xFFFFFFFD : Int) % 2 ≠ 0 ∧ (0xFFFFFFFD : Int) % 4 ≠ 0) ∧
    Spec.InBounds 0xFFFFFFFC ∧ (0xFFFFFFFC : Int) % 4 = 0 ∧ 3 < 4 := by decide

theorem witness_ClearZeroesTheMemory : State.reset.status = .running ∧ State.reset.halt.status ≠ .running := by decide

/-- The ends of each range that a well-formed, encodable instruction has. -/
theorem witness_DecodeOfEncode : ([(.addi 31 0 2047, 0), (.addi 0 31 (-2048), 0), (.lui 31 0xFFFFF, 0), (.srai 1 2 31, 0),
    (.jal 1 1048574, 0), (.jal 1 0, 1048576), (.beq 1 2 4094, 0), (.bgeu 1 2 0, 4096), (.jal 0 2, 0xFFFFFFFE),
    (.sw 10 11 (-2048), 4), (.sub 31 30 29, 0xFFFFFFFC)] : List (Instr × Word)).all
      (fun row => row.1.wf && row.1.encodable row.2) = true := by decide

theorem witness_EncodeOfDecode : decodeWord 0xFE000EE3 0 = .ok (.beq 0 0 0xFFFFFFFC) := by decide

theorem witness_DecodedWordIsWellFormed : decodeWord 0x8005A503 0 = .ok (.lw 10 11 (-2048)) := by decide

theorem witness_DecodedRecordIsWellFormed : decodeRecord [("t", 8)] ⟨"slli", ["a0", "a1", "31"]⟩ = .ok (.slli 10 11 31) := by
  decide

theorem witness_NoWordMatchesTwoRows : ∃ r ∈ rows, (0x00C58533 : Word) &&& r.mask = r.pattern :=
  ⟨⟨"add", 0x00000033, 0xFE00707F, .r .add⟩, by simp [rows, rowsAluReg], by decide⟩

/-- An opcode string outside the 36, a word that no row accepts, and a word of each class of rule R75. -/
theorem witness_UnsupportedInstructions :
    "mul" ∉ Spec.mnemonics ∧ (∀ r ∈ rows, (0 : Word) &&& r.mask ≠ r.pattern) ∧
    decodeWord 0 0 = .error .unsupportedOperation ∧ (0x00000001 : Word).toNat % 4 ≠ 3 ∧
    (0x00000017 : Word).toNat % 128 ∈ [0x17, 0x0F, 0x73] ∧
    ((0x00002063 : Word).toNat % 128 = 0x63 ∧ Spec.slice 0x00002063 14 12 ∈ [2, 3]) ∧
    ((0x00003003 : Word).toNat % 128 = 0x03 ∧ Spec.slice 0x00003003 14 12 ∈ [3, 6, 7]) ∧
    ((0x00003023 : Word).toNat % 128 = 0x23 ∧ Spec.slice 0x00003023 14 12 ∈ [3, 4, 5, 6, 7]) ∧
    ((0x00001067 : Word).toNat % 128 = 0x67 ∧ Spec.slice 0x00001067 14 12 ≠ 0) ∧
    ((0x02001013 : Word).toNat % 128 = 0x13 ∧ Spec.slice 0x02001013 14 12 = 1 ∧ Spec.slice 0x02001013 31 25 ≠ 0) ∧
    ((0x02005013 : Word).toNat % 128 = 0x13 ∧ Spec.slice 0x02005013 14 12 = 5 ∧
      Spec.slice 0x02005013 31 25 ∉ [0, 32]) ∧
    ((0x02000033 : Word).toNat % 128 = 0x33 ∧ Spec.slice 0x02000033 31 25 ∉ [0, 32]) ∧
    ((0x40001033 : Word).toNat % 128 = 0x33 ∧ Spec.slice 0x40001033 14 12 ∉ [0, 5] ∧
      Spec.slice 0x40001033 31 25 ≠ 0) := by decide

theorem witness_PlacedWordRunsNext : decodeWord 0x018000EF State.reset.pc = .ok (.jal 1 0x18) := by decide

theorem witness_RegisterNamesResolve : Spec.Names "x31" 31 ∧ Spec.Names "zero" 0 ∧ ¬ ∃ r, Spec.Names "x32" r :=
  ⟨⟨(31, "x31", "t6"), by decide, rfl, .inl rfl⟩, ⟨(0, "x0", "zero"), by decide, rfl, .inr rfl⟩, by
    rintro ⟨r, row, hm, -, h⟩
    have hall : ∀ row ∈ Spec.names, "x32" ≠ row.2.1 ∧ "x32" ≠ row.2.2 := by decide
    exact h.elim (hall row hm).1 (hall row hm).2⟩

theorem digits_2047 : Spec.Digits 10 ['2', '0', '4', '7'] 2047 :=
  .more ['2', '0', '4'] 204 '7' 7 (.more ['2', '0'] 20 '4' 4 (.more ['2'] 2 '0' 0 (.one '2' 2 ⟨by decide, .inl rfl⟩)
    ⟨by decide, .inl rfl⟩) ⟨by decide, .inl rfl⟩) ⟨by decide, .inl rfl⟩

theorem digits_800 : Spec.Digits 16 ['8', '0', '0'] 2048 :=
  .more ['8', '0'] 128 '0' 0 (.more ['8'] 8 '0' 0 (.one '8' 8 ⟨by decide, .inl rfl⟩) ⟨by decide, .inl rfl⟩)
    ⟨by decide, .inl rfl⟩

/-- The greatest and the least literal of a 12-bit slot, and a token that is no literal at all. -/
theorem witness_LiteralsFollowTheGrammar :
    Spec.Literal "2047".toList 2047 ∧ Spec.Literal "-0x800".toList (-2048) ∧ ¬ ∃ v, Spec.Literal [] v :=
  ⟨.plain _ 2047 (.dec '2' _ 2047 (by decide) digits_2047), .minus _ 2048 (.hex 'x' _ 2048 (.inl rfl) digits_800),
    by rintro ⟨v, h⟩; cases h; rename_i h; cases h⟩

/-- A token of the form for each of its three outcomes, and one that is not of the form. -/
theorem witness_OffsetAndBaseTokens :
    ("4(t0)".toList = ['4'] ++ '(' :: ['t', '0'] ++ [')'] ∧ imm12Slot ['4'] = .ok 4 ∧ regSlot "t0" = .ok 5) ∧
    ("(t0)".toList = [] ++ '(' :: ['t', '0'] ++ [')'] ∧ imm12Slot [] = .error .immediateParseError) ∧
    ("0(q1)".toList = ['0'] ++ '(' :: ['q', '1'] ++ [')'] ∧ regSlot "q1" = .error .unknownRegister) ∧
    ¬ ∃ lit name : List Char, "a1".toList = lit ++ '(' :: name ++ [')'] ∧ '(' ∉ lit ∧ ')' ∉ name :=
  ⟨by decide, by decide, by decide, by
    rintro ⟨lit, name, h, -⟩
    have hm : '(' ∈ "a1".toList := by rw [h]; simp
    exact absurd hm (by decide)⟩

theorem witness_LoadedProgramIsTheLines : ∃ s, loadLines linesT1 = .next s ∧ s.status = .running := ⟨_, rfl, by decide⟩

/-- A line that is neither kind, an empty name, a name declared before, and a label at the end. -/
theorem witness_ResolutionErrorsStopTheLoad :
    (∃ p, resolve [["a:"]] = .ok p ∧ (("a", 0) : String × Word) ∈ p.labels) ∧
    ((∀ name, ¬ Spec.LabelLine ["nop"] name) ∧ ¬ Spec.InstrLine ["nop"]) ∧ Spec.LabelLine [":"] "" ∧
    Spec.LabelLine ["a:"] "a" ∧
    ∃ p, resolve [["addi", "a0", "a0", "1"], ["end:"]] = .ok p ∧ p.entries.length ≤ 2 ^ 30 - 1 ∧
      ("end", w32 (4 * p.entries.length)) ∈ p.labels :=
  ⟨⟨_, rfl, by decide⟩, ⟨(fun name h => absurd (labelName_eq_some_iff.mpr h) (by simp [labelName])),
    by unfold Spec.InstrLine; decide⟩, ⟨_, rfl, rfl⟩, ⟨_, rfl, by decide⟩, _, rfl, by decide, by decide⟩

/-- Two records that refer to undeclared labels, after one that refers to a declared one. -/
def linesTwoUndefined : List (List String) :=
  [["a:"], ["jal", "zero", "a"], ["beq", "a0", "a1", "u"], ["jal", "zero", "v"]]

theorem test_resolve_first_undefined_label :
    loaded (loadLines linesTwoUndefined) = some ([], [], .faulted .unresolvedLabel 0 (.reference "u" 4)) := by decide

/-- The label check: the first undeclared label is `u`, and every label referred to before it is declared. -/
theorem witness_UndefinedLabelsNeverRun_first :
    (∃ p, resolve linesTwoUndefined = .ok p) ∧ (∀ line ∈ linesTwoUndefined.getLast?, Spec.InstrLine line) ∧
    (Spec.lineEntries linesTwoUndefined).length ≤ 2 ^ 30 - 1 ∧
    Spec.lineEntries linesTwoUndefined = [.record ⟨"jal", ["zero", "a"]⟩] ++
      .record ⟨"beq", ["a0", "a1", "u"]⟩ :: [.record ⟨"jal", ["zero", "v"]⟩] ∧
    Spec.refersTo ⟨"beq", ["a0", "a1", "u"]⟩ = some "u" ∧ (∀ line ∈ linesTwoUndefined, ¬ Spec.LabelLine line "u") ∧
    ∀ q n, Entry.record q ∈ [Entry.record ⟨"jal", ["zero", "a"]⟩] → Spec.refersTo q = some n →
      ∃ line ∈ linesTwoUndefined, Spec.LabelLine line n := by
  refine ⟨⟨_, rfl⟩, ?_, by decide, by decide, by decide, ?_, ?_⟩
  · intro line hl
    cases hl
    exact .inl rfl
  · have hn : ∀ line ∈ linesTwoUndefined, labelName line ≠ some "u" := by decide
    exact fun line hl h => hn line hl (labelName_eq_some_iff.mpr h)
  · intro q n hm hn
    cases List.mem_singleton.mp hm
    cases hn
    exact ⟨["a:"], by decide, _, rfl, by decide⟩

/-- A name that the table holds and one that it does not; a program with an undefined label, and one that runs. -/
theorem witness_UndefinedLabelsNeverRun :
    (LabelTable.address? [("t", 8)] "t" = some 8 ∧ LabelTable.address? [("t", 8)] "u" = none) ∧
    (∃ s, loadLines linesP7 = .next s) ∧ Entry.record ⟨"jal", ["zero", "nowhere"]⟩ ∈ Spec.lineEntries linesP7 ∧
    Spec.refersTo ⟨"jal", ["zero", "nowhere"]⟩ = some "nowhere" ∧
    (∀ line ∈ linesP7, ¬ Spec.LabelLine line "nowhere") ∧
    ∃ s, loadLines linesT1 = .next s ∧ s.status = .running ∧ ∃ e, e ∈ s.program :=
  ⟨by decide, ⟨_, rfl⟩, by decide, by decide, by
    intro line hl h
    unfold Spec.LabelLine at h
    rw [← labelName_eq_some_iff] at h
    revert line
    decide, _, rfl, by decide, _, List.mem_cons_self⟩

theorem witness_WellFormedProgramsLoad :
    (∀ line ∈ linesT1, Spec.InstrLine line ∨ ∃ name, name ≠ "" ∧ Spec.LabelLine line name) ∧
    (linesT1.Pairwise fun a b => ∀ name, ¬ (Spec.LabelLine a name ∧ Spec.LabelLine b name)) ∧
    (∀ line ∈ linesT1.getLast?, Spec.InstrLine line) ∧ (Spec.lineEntries linesT1).length ≤ 2 ^ 30 - 1 ∧
    ∀ r name, Entry.record r ∈ Spec.lineEntries linesT1 → Spec.refersTo r = some name →
      ∃ line ∈ linesT1, Spec.LabelLine line name := by
  have hd : linesT1.Pairwise fun a b => labelName a = none ∨ labelName a ≠ labelName b := by decide
  have hr : ∀ e ∈ Spec.lineEntries linesT1, ∀ r, e = Entry.record r →
      Spec.refersTo r = none ∨ Spec.refersTo r = some "over" := by
    have h : (Spec.lineEntries linesT1).all (fun e => match e with
      | .record r => decide (Spec.refersTo r = none ∨ Spec.refersTo r = some "over")
      | .word _ => true) = true := by decide
    intro e he r hr
    subst hr
    simpa using List.all_eq_true.mp h _ he
  refine ⟨?_, hd.imp fun {a b} h name hn => ?_, ?_, by decide, fun r name hm hn => ?_⟩
  · have h : ∀ line ∈ linesT1, (line.length = 3 ∨ line.length = 4) ∨ ∃ name ∈ ["start", "mid", "end", "over"],
        labelName line = some name := by decide
    intro line hl
    refine (h line hl).imp id fun ⟨name, hm, hn⟩ => ⟨name, ?_, labelName_eq_some_iff.mp hn⟩
    rintro rfl
    revert hm
    decide
  · have h1 := labelName_eq_some_iff.mpr hn.1
    have h2 := labelName_eq_some_iff.mpr hn.2
    rw [h1, h2] at h
    exact h.elim (fun h => by cases h) (fun h => h rfl)
  · intro line hl
    cases hl
    exact .inr rfl
  · rcases hr _ hm r rfl with h | h
    · rw [h] at hn; cases hn
    · rw [h] at hn
      cases hn
      exact ⟨["over:"], by decide, _, rfl, by decide⟩

/-- Words of an admitted number, and none at all. -/
theorem witness_WellFormedProgramsLoad_words : ([0x00550513, 0xFFFFFFFF] : List Word).length ≤ 2 ^ 30 - 1 ∧
    ([] : List Word).length ≤ 2 ^ 30 - 1 := by decide

/-- The words of program P1, in order, with no label. -/
theorem test_loadWords :
    loaded (loadWords [0x00550513, 0x00750513]) = some ([.word 0x00550513, .word 0x00750513], [], .running) := by decide

/-- A budget of no step and of one step that leave the status `Running`, and a terminal status. -/
theorem witness_RunOnABudget : (runFuel 0 placed).status = .running ∧ (runFuel 1 placed).status = .running ∧
    State.reset.halt.status ≠ .running := by decide

end Sys2Proof.Tests
end

section
/-! # The invariant after a load

The resolver gives every label the address of the next instruction, so a label is at `4*k` with `k` at most the number of
instructions so far; the end check then refuses the one case, `k` equal to that number, in which no instruction follows. -/

namespace Sys2Proof.Machine

variable {p q : Program} {s : State}

theorem programWf_iff : p.wf = true ↔ p.entries.length ≤ Config.maxProgramLength ∧
    ∀ row ∈ p.labels, row.2.toNat % 4 = 0 ∧ row.2.toNat < 4 * p.entries.length := by
  simp [Program.wf]

/-- The resolver's invariant: every label is the address of an instruction read so far, or of the next one. -/
def LabelsWithin (p : Program) : Prop := ∀ row ∈ p.labels, ∃ k, k ≤ p.entries.length ∧ row.2 = addressOf k

theorem labelsWithin_empty : LabelsWithin ⟨[], []⟩ := fun _ hrow => absurd hrow List.not_mem_nil

theorem resolveLine_labelsWithin {line : List String} (hp : LabelsWithin p) (h : resolveLine p line = .ok q) :
    LabelsWithin q := by
  obtain ⟨name, -, -, -, rfl⟩ | ⟨-, op, args, -, -, rfl⟩ := resolveLine_cases h
  · intro row hrow
    rcases List.mem_append.mp hrow with hold | hnew
    · exact hp row hold
    · cases List.mem_singleton.mp hnew
      exact ⟨p.entries.length, le_rfl, rfl⟩
  · intro row hrow
    obtain ⟨k, hk, hat⟩ := hp row hrow
    exact ⟨k, by rw [List.length_append]; omega, hat⟩

theorem resolveFrom_labelsWithin {lines : List (List String)} (hp : LabelsWithin p)
    (h : resolveFrom p lines = .ok q) : LabelsWithin q := by
  induction lines generalizing p with
  | nil => cases h; exact hp
  | cons line lines ih =>
    rw [resolveFrom] at h
    cases hl : resolveLine p line with
    | error e => rw [hl] at h; cases h
    | ok r => rw [hl] at h; exact ih (resolveLine_labelsWithin hp hl) h

theorem trailingLabel_of_endCheck (h : endCheck p = none) : trailingLabel p = none :=
  (Option.or_eq_none_iff.mp h).1

/-- A resolved program of an admitted length with no trailing label is one the engine runs (rules R6 and R63). -/
theorem LabelsWithin.programWf (hp : LabelsWithin p) (hlen : p.entries.length ≤ Config.maxProgramLength)
    (ht : trailingLabel p = none) : p.wf = true := by
  refine programWf_iff.mpr ⟨hlen, fun row hrow => ?_⟩
  obtain ⟨k, hk, hat⟩ := hp row hrow
  have hne : k ≠ p.entries.length := by
    rintro rfl
    exact trailingLabel_eq_none_iff.mp ht row hrow hat
  rw [hat, addressOf_toNat (hk.trans hlen)]
  omega

theorem boot_inv (h : p.wf = true) : (State.boot p).Inv where
  memory := wf_nil
  zero := rfl
  aligned := rfl
  program := h
  halted := nofun
  faulted := nofun

theorem failedLoad_inv (e : LoadError) : (State.failedLoad e).Inv where
  memory := wf_nil
  zero := rfl
  aligned := rfl
  program := rfl
  halted := nofun
  faulted _ _ _ h := by
    rw [failedLoad_status] at h
    cases h
    rfl

theorem loadLines_inv {lines : List (List String)} (h : loadLines lines = .next s) : s.Inv := by
  obtain ⟨e, rfl⟩ | ⟨p, hp, hlen, hc, rfl⟩ := loadLines_cases h
  · exact failedLoad_inv e
  · have hw : LabelsWithin p := resolveFrom_labelsWithin labelsWithin_empty hp
    exact boot_inv (hw.programWf hlen (trailingLabel_of_endCheck hc))

theorem loadWords_inv {ws : List Word} (h : loadWords ws = .next s) : s.Inv := by
  unfold loadWords at h
  split at h
  · cases h
  · next hlen =>
    cases h
    refine boot_inv (programWf_iff.mpr ⟨?_, nofun⟩)
    rw [List.length_map]
    exact Nat.le_of_not_lt hlen

/-- Settles O4: a load leaves the reset state with the fault of the load, or with a program whose labels the resolver and
the end check have kept below its end. -/
theorem loadedStateMeetsTheInvariant : Obligations.LoadedStateMeetsTheInvariant :=
  ⟨fun _ _ h => loadLines_inv h, fun _ _ h => loadWords_inv h⟩

end Sys2Proof.Machine
end

section
/-! # The invariant along the steps

A step from `Running` halts, takes a fault, or has the effect of an instruction (`step_cases`, `exec_effect`); each of
these keeps the invariant. -/

namespace Sys2Proof.Machine

variable {s t : State}

/-- In a running state the two clauses about a terminal status are empty. -/
theorem inv_of_running (memory : t.mem.wf) (zero : t.regs[0] = 0#32) (aligned : t.pc.toNat % 4 = 0)
    (program : Program.wf ⟨t.program, t.labels⟩ = true) (running : t.status = .running) : t.Inv where
  memory := memory
  zero := zero
  aligned := aligned
  program := program
  halted h := by rw [running] at h; cases h
  faulted _ _ _ h := by rw [running] at h; cases h

theorem halt_inv (hs : s.Inv) (hf : s.fetchEntry = none) : s.halt.Inv where
  memory := hs.memory
  zero := hs.zero
  aligned := hs.aligned
  program := hs.program
  halted _ := hf
  faulted := nofun

theorem raiseFault_inv (hs : s.Inv) (kind : FaultKind) : (s.raiseFault kind).Inv where
  memory := hs.memory
  zero := hs.zero
  aligned := hs.aligned
  program := hs.program
  halted := nofun
  faulted _ _ _ h := by cases h; rfl

theorem Effect.inv (he : Effect s t) (hs : s.Inv) (hr : s.status = .running) : t.Inv := by
  have hnext := nextPc_aligned s hs.aligned
  cases he with
  | write rd v =>
    exact inv_of_running (by simpa using hs.memory) (by simpa using hs.zero) (by simpa using hnext)
      (by simpa using hs.program) (by simpa using hr)
  | jump rd v target h =>
    exact inv_of_running (by simpa using hs.memory) (by simpa using hs.zero) h
      (by simpa using hs.program) (by simpa using hr)
  | store ea n x hn ha =>
    exact inv_of_running (wf_writeLE hs.memory (access_inside hn ha) x) hs.zero hnext hs.program hr
  | fault kind => exact raiseFault_inv hs kind

/-- Settles O5: each of the three outcomes of a step keeps the invariant. -/
theorem stepKeepsTheInvariant : Obligations.StepKeepsTheInvariant := by
  intro s t hs h
  obtain ⟨hr, ⟨hf, rfl⟩ | ⟨e, -, ⟨kind, -, rfl⟩ | ⟨i, -, hx⟩⟩⟩ := step_cases h
  · exact halt_inv hs hf
  · exact raiseFault_inv hs kind
  · exact (effect_of_exec hx).inv hs hr

end Sys2Proof.Machine
end

section
/-! # Reset, terminal statuses and the run on a budget -/

namespace Sys2Proof.Machine

variable {s t : State}

theorem hostReset_eq_boot (s : State) : hostReset s = State.boot ⟨s.program, s.labels⟩ := rfl

/-- A program in place changes no register, pc or byte of the reset state (rule R212). -/
theorem boot_atReset (p : Program) : Spec.AtReset (State.boot p) :=
  ⟨fun r => reset_readReg r, boot_pc p, fun _ => by rw [boot_mem]; rfl⟩

/-- Settles O1: a reset is the load of the program in place, and a loaded state is at reset. -/
theorem resetGivesTheResetState : Obligations.ResetGivesTheResetState := by
  intro s
  rw [hostReset_eq_boot]
  obtain ⟨hregs, hpc, hmem⟩ := boot_atReset ⟨s.program, s.labels⟩
  exact ⟨hregs, hpc, hmem, boot_status _, boot_program _, boot_labels _⟩

/-- Settles O3: the reset state is the one that a load of no instruction leaves. -/
theorem resetMeetsTheInvariant : Obligations.ResetMeetsTheInvariant :=
  boot_inv (p := ⟨[], []⟩) rfl

theorem step_of_halted (h : s.status = .halted) : step s = .refused .afterHalt := by
  unfold step; rw [h]

theorem step_of_faulted {kind : FaultKind} {pc : Word} {offender : Offender}
    (h : s.status = .faulted kind pc offender) : step s = .fault (.aborted kind) := by
  unfold step; rw [h]

/-- Settles O10, one lemma for each terminal status. -/
theorem noStepFromATerminalStatus : Obligations.NoStepFromATerminalStatus :=
  fun _ => ⟨step_of_halted, fun _ _ _ => step_of_faulted⟩

/-! ## The run on a budget -/

/-- From `Running` a step answers a next state, whatever is fetched. -/
theorem exists_step_of_running (hr : s.status = .running) : ∃ t, step s = .next t := by
  cases hf : s.fetchEntry with
  | none => exact ⟨_, step_halt hr hf⟩
  | some e =>
    cases hd : decodeEntry s.labels s.pc e with
    | error kind => exact ⟨_, step_decodeFault hr hf hd⟩
    | ok i =>
      obtain ⟨t, ht, -⟩ := exec_effect i s
      exact ⟨t, (step_decoded hr hf hd).trans ht⟩

@[simp] theorem runFuel_zero (s : State) : runFuel 0 s = s := rfl

theorem runFuel_succ_of_step (h : step s = .next t) (n : Nat) : runFuel (n + 1) s = runFuel n t := by
  rw [runFuel, h]

theorem runFuel_of_not_running (h : s.status ≠ .running) (n : Nat) : runFuel n s = s := by
  cases n with
  | zero => rfl
  | succ n =>
    rw [runFuel]
    cases hx : step s with
    | next t => exact absurd (step_cases hx).1 h
    | fault r => rfl
    | refused r => rfl

theorem runFuel_add (m n : Nat) (s : State) : runFuel (m + n) s = runFuel n (runFuel m s) := by
  induction m generalizing s with
  | zero => rw [Nat.zero_add, runFuel_zero]
  | succ m ih =>
    by_cases hr : s.status = .running
    · obtain ⟨t, ht⟩ := exists_step_of_running hr
      rw [Nat.succ_add, runFuel_succ_of_step ht, runFuel_succ_of_step ht, ih]
    · simp only [runFuel_of_not_running hr]

/-- Settles O57: the budget splits by induction on its first part, and one unit of it is a step where a step is
defined. -/
theorem runOnABudget : Obligations.RunOnABudget := by
  refine ⟨runFuel_add, fun n s hr => ?_, fun n s h => runFuel_of_not_running h n⟩
  obtain ⟨t, ht⟩ := exists_step_of_running hr
  rw [runFuel_add, runFuel_succ_of_step ht, runFuel_zero, ht]

end Sys2Proof.Machine
end

section
/-! # What an instruction leaves unchanged

Every instruction but a store keeps the memory and every register but its destination; a store keeps every register. -/

namespace Sys2Proof.Machine

variable {s t : State}

/-- The outcome is a next state with the memory of `s` and every register of `s` but the destination. -/
def KeepsRest (dest : Option Reg) (s : State) (x : Result) : Prop :=
  ∃ t, x = .next t ∧ t.mem = s.mem ∧ ∀ r, dest ≠ some r → t.readReg r = s.readReg r

theorem readReg_writeReg_of_dest_ne {rd r : Reg} (v : Word) (h : some rd ≠ some r) :
    (s.writeReg rd v).readReg r = s.readReg r :=
  readReg_writeReg_ne s rd r v fun hr => h (congrArg some hr.symm)

theorem raiseFault_keepsRest (dest : Option Reg) (s : State) (kind : FaultKind) :
    KeepsRest dest s (.next (s.raiseFault kind)) :=
  ⟨_, rfl, rfl, fun _ _ => rfl⟩

theorem writeResult_keepsRest (rd : Reg) (v : Word) (s : State) : KeepsRest (some rd) s (writeResult rd v s) :=
  ⟨_, rfl, writeReg_mem s rd v, fun _ h => readReg_writeReg_of_dest_ne v h⟩

theorem transfer_keepsRest {dest : Option Reg} {linked : State} (target : Word) (hmem : linked.mem = s.mem)
    (hregs : ∀ r, dest ≠ some r → linked.readReg r = s.readReg r) :
    KeepsRest dest s (transfer target linked s) := by
  by_cases h : target.toNat % 4 = 0
  · rw [transfer_aligned h]
    exact ⟨_, rfl, hmem, hregs⟩
  · rw [transfer_misaligned h]
    exact raiseFault_keepsRest dest s _

theorem link_keepsRest (rd : Reg) (v target : Word) (s : State) :
    KeepsRest (some rd) s (transfer target (s.writeReg rd v) s) :=
  transfer_keepsRest target (writeReg_mem s rd v) fun _ h => readReg_writeReg_of_dest_ne v h

theorem branch_keepsRest (cond : Word → Word → Bool) (rs1 rs2 : Reg) (target : Word) (s : State) :
    KeepsRest none s (branch cond rs1 rs2 target s) := by
  cases hc : cond (s.readReg rs1) (s.readReg rs2) with
  | false => rw [branch_not_taken hc]; exact ⟨_, rfl, rfl, fun _ _ => rfl⟩
  | true => rw [branch_taken hc]; exact transfer_keepsRest target rfl fun _ _ => rfl

theorem load_keepsRest (n : Nat) (ext : BitVec (8 * n) → Word) (rd rs1 : Reg) (imm : Int) (s : State) :
    KeepsRest (some rd) s (load n ext rd rs1 imm s) := by
  cases h : accessFault (s.effectiveAddress rs1 imm) n with
  | none => rw [load_ok h]; exact writeResult_keepsRest rd _ s
  | some kind => rw [load_fault h]; exact raiseFault_keepsRest _ s kind

theorem exec_keepsRest {i : Instr} (h : Spec.isStore i = false) (s : State) :
    KeepsRest (Spec.dest i) s (exec i s) := by
  cases i with
  | lui | addi | slti | sltiu | xori | ori | andi | slli | srli | srai => exact writeResult_keepsRest _ _ s
  | add | sub | sll | slt | sltu | xor | srl | sra | or | and => exact writeResult_keepsRest _ _ s
  | jal | jalr => exact link_keepsRest _ _ _ s
  | beq | bne | blt | bge | bltu | bgeu => exact branch_keepsRest _ _ _ _ s
  | lb | lh | lw | lbu | lhu => exact load_keepsRest _ _ _ _ _ s
  | sb | sh | sw => cases h

/-- Settles O14: an instruction other than a store keeps all but its destination. -/
theorem onlyStoresChangeMemory : Obligations.OnlyStoresChangeMemory := by
  intro i s t hi hx
  obtain ⟨u, hu, hmem, -⟩ := exec_keepsRest hi s
  cases hu.symm.trans hx
  exact hmem

theorem store_readReg {n : Nat} {rs2 rs1 : Reg} {imm : Int} (h : store n rs2 rs1 imm s = .next t) (r : Reg) :
    t.readReg r = s.readReg r := by
  cases ha : accessFault (s.effectiveAddress rs1 imm) n with
  | none => rw [store_ok ha] at h; cases h; rfl
  | some kind => rw [store_fault ha] at h; cases h; rfl

/-- An instruction changes no register but its destination (rule R14). -/
theorem exec_readReg_of_dest_ne {i : Instr} (hx : exec i s = .next t) {r : Reg} (hr : Spec.dest i ≠ some r) :
    t.readReg r = s.readReg r := by
  cases hi : Spec.isStore i with
  | false =>
    obtain ⟨u, hu, -, hregs⟩ := exec_keepsRest hi s
    cases hu.symm.trans hx
    exact hregs r hr
  | true =>
    cases i with
    | sb | sh | sw => exact store_readReg hx r
    | _ => cases hi

/-- A register that a step changes is the destination of the instruction it executed (rule R14). -/
theorem step_changes_dest (h : step s = .next t) {r : Reg} (hr : t.readReg r ≠ s.readReg r) :
    ∃ e i, s.program[s.pc.toNat / 4]? = some e ∧ decodeEntry s.labels s.pc e = .ok i ∧ Spec.dest i = some r := by
  obtain ⟨-, ⟨-, rfl⟩ | ⟨e, hf, ⟨kind, -, rfl⟩ | ⟨i, hd, hx⟩⟩⟩ := step_cases h
  · exact absurd (halt_readReg s r) hr
  · exact absurd (raiseFault_readReg s r kind) hr
  · refine ⟨e, i, (fetchEntry_eq s).symm.trans hf, hd, ?_⟩
    by_contra hne
    exact hr (exec_readReg_of_dest_ne hx hne)

end Sys2Proof.Machine
end

section
/-! # What an instruction depends on

Two states that differ in registers alone (`SameButRegs`) and agree on the sources of an instruction have outcomes that
differ in registers alone, and that agree on the destination where no fault is taken. -/

namespace Sys2Proof.Machine

variable {s s' : State}

/-- The pc, the memory, the status and the program agree; nothing is said of the registers. -/
structure SameButRegs (s s' : State) : Prop where
  pc : s'.pc = s.pc
  mem : s'.mem = s.mem
  status : s'.status = s.status
  program : s.SameProgram s'

/-- The outcome from `s'` is that from `s` but for registers other than the destination; after a fault, but for any. -/
def SameOutcome (dest : Option Reg) (s : State) (x x' : Result) : Prop :=
  ∀ t, x = .next t → ∃ t', x' = .next t' ∧ SameButRegs t t' ∧
    (t.status = s.status → s.status = .running → ∀ r, dest = some r → t'.readReg r = t.readReg r)

theorem SameButRegs.fetchEntry (h : SameButRegs s s') : s'.fetchEntry = s.fetchEntry := by
  rw [fetchEntry_eq, fetchEntry_eq, h.pc, h.program.1]

theorem SameButRegs.offender (h : SameButRegs s s') : s'.offender = s.offender := by
  unfold State.offender; rw [h.fetchEntry]

theorem SameButRegs.nextPc (h : SameButRegs s s') : s'.nextPc = s.nextPc := by
  unfold State.nextPc; rw [h.pc]

theorem SameButRegs.raiseFault (h : SameButRegs s s') (kind : FaultKind) :
    SameButRegs (s.raiseFault kind) (s'.raiseFault kind) where
  pc := h.pc
  mem := h.mem
  status := by rw [raiseFault_status, raiseFault_status, h.pc, h.offender]
  program := h.program

theorem SameButRegs.setPc (h : SameButRegs s s') (target : Word) : SameButRegs (s.setPc target) (s'.setPc target) where
  pc := rfl
  mem := h.mem
  status := h.status
  program := h.program

theorem SameButRegs.advance (h : SameButRegs s s') : SameButRegs s.advance s'.advance := by
  unfold State.advance; rw [h.nextPc]; exact h.setPc _

theorem SameButRegs.writeReg (h : SameButRegs s s') (rd : Reg) (v : Word) :
    SameButRegs (s.writeReg rd v) (s'.writeReg rd v) where
  pc := by rw [writeReg_pc, writeReg_pc, h.pc]
  mem := by rw [writeReg_mem, writeReg_mem, h.mem]
  status := by rw [writeReg_status, writeReg_status, h.status]
  program := by simpa [State.SameProgram] using h.program

theorem SameButRegs.withMem (h : SameButRegs s s') (m : Memory) :
    SameButRegs { s with mem := m } { s' with mem := m } where
  pc := h.pc
  mem := rfl
  status := h.status
  program := h.program

theorem SameOutcome.of_next {dest : Option Reg} {u u' : State} (h : SameButRegs u u')
    (hd : ∀ r, dest = some r → u'.readReg r = u.readReg r) : SameOutcome dest s (.next u) (.next u') := by
  intro t ht
  cases ht
  exact ⟨u', rfl, h, fun _ _ => hd⟩

/-- After a fault the status is not `Running`, so nothing is asked of the destination. -/
theorem SameButRegs.outcome_raiseFault (h : SameButRegs s s') (dest : Option Reg) (kind : FaultKind) :
    SameOutcome dest s (.next (s.raiseFault kind)) (.next (s'.raiseFault kind)) := by
  intro t ht
  cases ht
  refine ⟨_, rfl, h.raiseFault kind, fun hst hr => ?_⟩
  rw [raiseFault_status, hr] at hst
  cases hst

theorem readReg_writeReg_dest_eq {rd r : Reg} (s s' : State) (v : Word) (h : some rd = some r) :
    (s'.writeReg rd v).readReg r = (s.writeReg rd v).readReg r := by
  cases h
  rw [readReg_writeReg_same, readReg_writeReg_same]

theorem SameButRegs.outcome_writeResult (h : SameButRegs s s') (rd : Reg) {v v' : Word} (hv : v' = v) :
    SameOutcome (some rd) s (writeResult rd v s) (writeResult rd v' s') := by
  rw [hv]
  exact .of_next (h.writeReg rd v).advance fun r hr => readReg_writeReg_dest_eq s s' v hr

theorem SameButRegs.outcome_transfer (h : SameButRegs s s') {dest : Option Reg} {linked linked' : State}
    (target : Word) (hl : SameButRegs linked linked')
    (hd : ∀ r, dest = some r → linked'.readReg r = linked.readReg r) :
    SameOutcome dest s (transfer target linked s) (transfer target linked' s') := by
  by_cases ha : target.toNat % 4 = 0
  · rw [transfer_aligned ha, transfer_aligned ha]
    exact .of_next (hl.setPc target) hd
  · rw [transfer_misaligned ha, transfer_misaligned ha]
    exact h.outcome_raiseFault dest _

theorem SameButRegs.outcome_link (h : SameButRegs s s') (rd : Reg) {target target' : Word} (ht : target' = target) :
    SameOutcome (some rd) s (transfer target (s.writeReg rd s.nextPc) s)
      (transfer target' (s'.writeReg rd s'.nextPc) s') := by
  rw [ht, h.nextPc]
  exact h.outcome_transfer target (h.writeReg rd s.nextPc) fun r hr => readReg_writeReg_dest_eq s s' s.nextPc hr

theorem SameButRegs.outcome_branch (h : SameButRegs s s') (cond : Word → Word → Bool) {rs1 rs2 : Reg}
    (target : Word) (h1 : s'.readReg rs1 = s.readReg rs1) (h2 : s'.readReg rs2 = s.readReg rs2) :
    SameOutcome none s (branch cond rs1 rs2 target s) (branch cond rs1 rs2 target s') := by
  cases hc : cond (s.readReg rs1) (s.readReg rs2) with
  | false =>
    rw [branch_not_taken hc, branch_not_taken (by rw [h1, h2]; exact hc)]
    exact .of_next h.advance nofun
  | true =>
    rw [branch_taken hc, branch_taken (by rw [h1, h2]; exact hc)]
    exact h.outcome_transfer target h nofun

theorem effectiveAddress_congr {rs1 : Reg} (imm : Int) (h1 : s'.readReg rs1 = s.readReg rs1) :
    s'.effectiveAddress rs1 imm = s.effectiveAddress rs1 imm := by
  unfold State.effectiveAddress; rw [h1]

theorem jalrTarget_congr {rs1 : Reg} (imm : Int) (h1 : s'.readReg rs1 = s.readReg rs1) :
    s'.jalrTarget rs1 imm = s.jalrTarget rs1 imm := by
  unfold State.jalrTarget; rw [h1]

theorem SameButRegs.outcome_load (h : SameButRegs s s') (n : Nat) (ext : BitVec (8 * n) → Word) (rd : Reg) {rs1 : Reg}
    (imm : Int) (h1 : s'.readReg rs1 = s.readReg rs1) :
    SameOutcome (some rd) s (load n ext rd rs1 imm s) (load n ext rd rs1 imm s') := by
  have hea := effectiveAddress_congr imm h1
  cases ha : accessFault (s.effectiveAddress rs1 imm) n with
  | none =>
    rw [load_ok ha, load_ok (hea ▸ ha), hea, h.mem]
    exact h.outcome_writeResult rd rfl
  | some kind =>
    rw [load_fault ha, load_fault (hea ▸ ha)]
    exact h.outcome_raiseFault _ kind

theorem SameButRegs.outcome_store (h : SameButRegs s s') (n : Nat) {rs1 rs2 : Reg} (imm : Int)
    (h1 : s'.readReg rs1 = s.readReg rs1) (h2 : s'.readReg rs2 = s.readReg rs2) :
    SameOutcome none s (store n rs2 rs1 imm s) (store n rs2 rs1 imm s') := by
  have hea := effectiveAddress_congr imm h1
  cases ha : accessFault (s.effectiveAddress rs1 imm) n with
  | none =>
    rw [store_ok ha, store_ok (hea ▸ ha), hea, h.mem, h2]
    exact .of_next (h.withMem _).advance nofun
  | some kind =>
    rw [store_fault ha, store_fault (hea ▸ ha)]
    exact h.outcome_raiseFault _ kind

/-- What an instruction does depends on no register but its sources (rule R14). -/
theorem SameButRegs.outcome_exec (h : SameButRegs s s') (i : Instr)
    (hsrc : ∀ r ∈ Spec.sources i, s'.readReg r = s.readReg r) :
    SameOutcome (Spec.dest i) s (exec i s) (exec i s') := by
  cases i with
  | lui rd imm => exact h.outcome_writeResult rd rfl
  | jal rd target => exact h.outcome_link rd rfl
  | jalr rd rs1 imm => exact h.outcome_link rd (jalrTarget_congr imm (hsrc rs1 (by simp [Spec.sources])))
  | beq a b | bne a b | blt a b | bge a b | bltu a b | bgeu a b =>
    exact h.outcome_branch _ _ (hsrc a (by simp [Spec.sources])) (hsrc b (by simp [Spec.sources]))
  | lb _ rs1 | lh _ rs1 | lw _ rs1 | lbu _ rs1 | lhu _ rs1 =>
    exact h.outcome_load _ _ _ _ (hsrc rs1 (by simp [Spec.sources]))
  | sb rs2 rs1 | sh rs2 rs1 | sw rs2 rs1 =>
    exact h.outcome_store _ _ (hsrc rs1 (by simp [Spec.sources])) (hsrc rs2 (by simp [Spec.sources]))
  | addi rd rs1 | slti rd rs1 | sltiu rd rs1 | xori rd rs1 | ori rd rs1 | andi rd rs1 | slli rd rs1 | srli rd rs1
  | srai rd rs1 =>
    exact h.outcome_writeResult rd (by rw [hsrc rs1 (by simp [Spec.sources])])
  | add rd a b | sub rd a b | sll rd a b | slt rd a b | sltu rd a b | xor rd a b | srl rd a b | sra rd a b
  | or rd a b | and rd a b =>
    exact h.outcome_writeResult rd (by rw [hsrc a (by simp [Spec.sources]), hsrc b (by simp [Spec.sources])])

/-- Settles O12: the frame of an instruction, what it depends on, and the frame of a step. -/
theorem registersReadAndWritten : Obligations.RegistersReadAndWritten := by
  refine ⟨fun i s t hx r hr => exec_readReg_of_dest_ne hx hr, ?_, fun s t r h hr => step_changes_dest h hr⟩
  intro i s s' t hsrc hpc hmem hstatus hprog hx
  obtain ⟨t', hx', hsame, hdest⟩ := SameButRegs.outcome_exec ⟨hpc, hmem, hstatus, hprog⟩ i hsrc t hx
  exact ⟨t', hx', hsame.pc, hsame.mem, hsame.status, hdest⟩

end Sys2Proof.Machine
end

section
/-! # The names of the registers

The table of rule R13 lists, for each register, the two names at its index in the model's two lists. -/

namespace Sys2Proof

variable {name : String} {r : Reg}

/-- A name found in a list of names stands at the index found. -/
theorem getElem?_of_regIn {l : List String} (h : regIn l name = some r) : l[r.val]? = some name := by
  obtain ⟨k, hk, hr⟩ := Option.bind_eq_some_iff.mp h
  obtain ⟨hlt, hname, -⟩ := List.idxOf?_eq_some_iff.mp hk
  split at hr
  · cases hr
    exact List.getElem?_eq_some_iff.mpr ⟨hlt, hname⟩
  · cases hr

/-- Each register has its row, with the names at its index in the two lists. -/
theorem exists_row_of_reg : ∀ r : Reg, ∃ row ∈ Spec.names,
    row.1 = r.val ∧ literalNames[r.val]? = some row.2.1 ∧ aliasNames[r.val]? = some row.2.2 := by
  decide

/-- Both names of a row resolve to the register of the row. -/
theorem regSlot_of_row : ∀ row ∈ Spec.names,
    regSlot row.2.1 = .ok (Spec.reg row.1) ∧ regSlot row.2.2 = .ok (Spec.reg row.1) := by
  decide

theorem reg_val (r : Reg) : Spec.reg r.val = r := Fin.ofNat_val_eq_self r

theorem regSlot_of_names (h : Spec.Names name r) : regSlot name = .ok r := by
  obtain ⟨row, hrow, hr, hname⟩ := h
  obtain ⟨hlit, habi⟩ := regSlot_of_row row hrow
  rw [hr, reg_val] at hlit habi
  rcases hname with rfl | rfl
  · exact hlit
  · exact habi

theorem names_of_regOfName (h : regOfName name = some r) : Spec.Names name r := by
  obtain ⟨row, hrow, hr, hlit, habi⟩ := exists_row_of_reg r
  refine ⟨row, hrow, hr, ?_⟩
  rcases Option.or_eq_some_iff.mp h with hin | ⟨-, hin⟩
  · exact .inl (Option.some.inj ((getElem?_of_regIn hin).symm.trans hlit))
  · exact .inr (Option.some.inj ((getElem?_of_regIn hin).symm.trans habi))

theorem regSlot_of_no_names (h : ¬ ∃ r, Spec.Names name r) : regSlot name = .error .unknownRegister := by
  unfold regSlot
  cases hr : regOfName name with
  | none => rfl
  | some r => exact absurd ⟨r, names_of_regOfName hr⟩ h

/-- Settles O50, by the table of rule R13. -/
theorem registerNamesResolve : Obligations.RegisterNamesResolve :=
  fun _ => ⟨fun _ => regSlot_of_names, regSlot_of_no_names⟩

end Sys2Proof
end

section
/-! # Programs without resolution errors load

The resolver takes a line of a legal form whose label is new; from the lines it takes come the records and the declared
labels, and then the two checks at the end of input pass. -/

namespace Sys2Proof

/-- A row with a target slot is that of `jal` or of a branch (rules R53 and R73). -/
theorem target_rows : ∀ row ∈ rows, (row.form matches .j _ → row.mnemonic = "jal") ∧
    (row.form matches .b _ → row.mnemonic ∈ ["beq", "bne", "blt", "bge", "bltu", "bgeu"]) := by
  decide

theorem rowOfOp_eq_some {op : String} {row : Row} (h : rowOfOp op = some row) : row ∈ rows ∧ row.mnemonic = op :=
  ⟨List.mem_of_find?_eq_some h, eq_of_beq (List.find?_some (p := fun r : Row => r.mnemonic == op) h)⟩

/-- The label a record refers to, read off the opcode table, is the one rule R185 names. -/
theorem refersTo_of_labelRef {r : SourceRecord} {name : String} (h : r.labelRef = some name) :
    Spec.refersTo r = some name := by
  obtain ⟨op, args⟩ := r
  unfold SourceRecord.labelRef at h
  split at h
  · next hrow hargs =>
    obtain ⟨hmem, hop⟩ := rowOfOp_eq_some hrow
    have hjal : op = "jal" := hop.symm.trans ((target_rows _ hmem).1 rfl)
    cases h
    cases (hargs : args = _)
    simp [Spec.refersTo, hjal]
  · next hrow hargs =>
    obtain ⟨hmem, hop⟩ := rowOfOp_eq_some hrow
    have hbranch := (target_rows _ hmem).2 rfl
    rw [hop] at hbranch
    cases h
    cases (hargs : args = _)
    exact if_pos hbranch
  · cases h

end Sys2Proof

namespace Sys2Proof.Machine

variable {p q : Program} {line : List String} {lines : List (List String)} {name : String}

/-! ## One line -/

/-- A line that rules R61 and R62 admit wherever its label, if any, is new. -/
def LegalLine (line : List String) : Prop := Spec.InstrLine line ∨ ∃ name, name ≠ "" ∧ Spec.LabelLine line name

/-- The label table of the resolver so far holds the name. -/
def Declares (p : Program) (name : String) : Prop := ∃ a, (name, a) ∈ p.labels

theorem labelName_of_instrLine (h : Spec.InstrLine line) : labelName line = none := by
  cases hl : labelName line with
  | none => rfl
  | some name =>
    obtain ⟨token, rfl, -⟩ := labelName_eq_some_iff.mp hl
    rcases h with h | h <;> cases h

theorem not_labelLine_of_labelName_none (h : labelName line = none) : ¬ Spec.LabelLine line name := by
  intro hl
  rw [labelName_eq_some_iff.mpr hl] at h
  cases h

theorem resolveLine_of_instrLine (p : Program) (h : Spec.InstrLine line) :
    ∃ e, resolveLine p line = .ok { p with entries := p.entries ++ [e] } := by
  have hl := labelName_of_instrLine h
  unfold resolveLine
  rw [hl]
  rcases h with h | h
  · obtain ⟨op, a, b, rfl⟩ := List.length_eq_three.mp h
    exact ⟨_, rfl⟩
  · match line, h with
    | [op, a, b, c], _ => exact ⟨_, rfl⟩

theorem resolveLine_of_labelLine (hl : Spec.LabelLine line name) (hne : name ≠ "") (hnew : ¬ Declares p name) :
    resolveLine p line = .ok { p with labels := p.labels ++ [(name, addressOf p.entries.length)] } := by
  unfold resolveLine
  rw [labelName_eq_some_iff.mpr hl]
  simp only [if_neg hne, address?_eq_none_iff.mpr hnew, Option.isSome_none, Bool.false_eq_true, if_false]

theorem exists_resolveLine (h : LegalLine line) (hnew : ∀ name, Spec.LabelLine line name → ¬ Declares p name) :
    ∃ q, resolveLine p line = .ok q := by
  rcases h with hi | ⟨name, hne, hl⟩
  · obtain ⟨e, he⟩ := resolveLine_of_instrLine p hi
    exact ⟨_, he⟩
  · exact ⟨_, resolveLine_of_labelLine hl hne (hnew name hl)⟩

theorem resolveLine_entries (h : resolveLine p line = .ok q) :
    q.entries = p.entries ++ (Spec.lineRecord line).toList := by
  obtain ⟨name, hl, -, -, rfl⟩ | ⟨-, op, args, rfl, hargs, rfl⟩ := resolveLine_cases h
  · obtain ⟨token, rfl, -⟩ := labelName_eq_some_iff.mp hl
    exact (List.append_nil _).symm
  · rcases hargs with h2 | h3
    · obtain ⟨a, b, rfl⟩ := List.length_eq_two.mp h2
      rfl
    · obtain ⟨a, b, c, rfl⟩ := List.length_eq_three.mp h3
      rfl

theorem resolveLine_declares_iff (h : resolveLine p line = .ok q) :
    Declares q name ↔ Declares p name ∨ Spec.LabelLine line name := by
  obtain ⟨n, hl, -, -, rfl⟩ | ⟨hl, op, args, -, -, rfl⟩ := resolveLine_cases h
  · have hname : Spec.LabelLine line name ↔ name = n := by
      refine ⟨fun h => ?_, fun h => h ▸ labelName_eq_some_iff.mp hl⟩
      exact Option.some.inj ((labelName_eq_some_iff.mpr h).symm.trans hl)
    rw [hname]
    simp [Declares, exists_or]
  · exact ⟨.inl, fun h => h.resolve_right (not_labelLine_of_labelName_none hl)⟩

/-! ## All lines -/

theorem resolveFrom_cons_ok (h : resolveFrom p (line :: lines) = .ok q) :
    ∃ r, resolveLine p line = .ok r ∧ resolveFrom r lines = .ok q := by
  rw [resolveFrom] at h
  cases hl : resolveLine p line with
  | error e => rw [hl] at h; cases h
  | ok r => rw [hl] at h; exact ⟨r, rfl, h⟩

theorem lineEntries_cons : Spec.lineEntries (line :: lines) =
    (Spec.lineRecord line).toList ++ Spec.lineEntries lines := by
  unfold Spec.lineEntries
  rw [List.filterMap_cons]
  cases Spec.lineRecord line <;> rfl

/-- The records are those of the instruction lines, in order (rule R63). -/
theorem resolveFrom_entries (h : resolveFrom p lines = .ok q) : q.entries = p.entries ++ Spec.lineEntries lines := by
  induction lines generalizing p with
  | nil => cases h; exact (List.append_nil _).symm
  | cons line lines ih =>
    obtain ⟨r, hl, hrest⟩ := resolveFrom_cons_ok h
    rw [ih hrest, resolveLine_entries hl, lineEntries_cons, List.append_assoc]

/-- The labels declared are those of the label lines (rule R62). -/
theorem resolveFrom_declares_iff (h : resolveFrom p lines = .ok q) :
    Declares q name ↔ Declares p name ∨ ∃ line ∈ lines, Spec.LabelLine line name := by
  induction lines generalizing p with
  | nil => cases h; simp
  | cons line lines ih =>
    obtain ⟨r, hl, hrest⟩ := resolveFrom_cons_ok h
    rw [ih hrest, resolveLine_declares_iff hl, or_assoc]
    simp only [List.mem_cons, exists_eq_or_imp]

/-- Legal lines resolve if no label is declared twice. -/
theorem exists_resolveFrom (hlegal : ∀ line ∈ lines, LegalLine line)
    (hdistinct : lines.Pairwise fun a b => ∀ name, ¬ (Spec.LabelLine a name ∧ Spec.LabelLine b name))
    (hnew : ∀ line ∈ lines, ∀ name, Spec.LabelLine line name → ¬ Declares p name) :
    ∃ q, resolveFrom p lines = .ok q := by
  induction lines generalizing p with
  | nil => exact ⟨p, rfl⟩
  | cons line lines ih =>
    obtain ⟨hline, hrest⟩ := List.pairwise_cons.mp hdistinct
    obtain ⟨r, hr⟩ := exists_resolveLine (hlegal line List.mem_cons_self) (hnew line List.mem_cons_self)
    rw [resolveFrom, hr]
    refine ih (fun l hl => hlegal l (List.mem_cons_of_mem _ hl)) hrest fun l hl name hname hdecl => ?_
    rcases (resolveLine_declares_iff hr).mp hdecl with hold | hthis
    · exact hnew l (List.mem_cons_of_mem _ hl) name hname hold
    · exact hline l hl name ⟨hthis, hname⟩

/-! ## The checks at the end of input -/

/-- No label stands at the end when the last line is an instruction line: the labels were declared before it. -/
theorem trailingLabel_of_getLast (hp : resolve lines = .ok p) (hlast : ∀ line ∈ lines.getLast?, Spec.InstrLine line)
    (hlen : p.entries.length ≤ Config.maxProgramLength) : trailingLabel p = none := by
  refine trailingLabel_eq_none_iff.mpr fun row hrow hat => ?_
  rcases List.eq_nil_or_concat' lines with rfl | ⟨before, last, rfl⟩
  · cases hp
    cases hrow
  · unfold resolve at hp
    rw [resolveFrom_append] at hp
    cases hb : resolveFrom ⟨[], []⟩ before with
    | error e => rw [hb] at hp; cases hp
    | ok r =>
      rw [hb] at hp
      obtain ⟨e, he⟩ := resolveLine_of_instrLine r (hlast last (by simp))
      obtain ⟨p', hp', hnil⟩ := resolveFrom_cons_ok hp
      cases he.symm.trans hp'
      cases hnil
      obtain ⟨k, hk, hrowk⟩ := resolveFrom_labelsWithin labelsWithin_empty hb row hrow
      have heq := congrArg BitVec.toNat (hrowk.symm.trans hat)
      simp only [List.length_append, List.length_singleton] at hlen heq
      rw [addressOf_toNat (by omega), addressOf_toNat hlen] at heq
      omega

theorem unresolvedFrom_of_declared
    (h : ∀ r name, Entry.record r ∈ p.entries → Spec.refersTo r = some name → Declares p name) :
    unresolvedFrom p.labels 0 p.entries = none :=
  (unresolvedFrom_eq_none_iff 0).mpr fun r name hr href => h r name hr (refersTo_of_labelRef href)

theorem loadLines_of_endCheck (hp : resolve lines = .ok p) (hlen : p.entries.length ≤ Config.maxProgramLength)
    (hc : endCheck p = none) : loadLines lines = .next (State.boot p) := by
  unfold loadLines
  simp only [hp, if_neg (Nat.not_lt.mpr hlen), hc]

/-- Settles O56: legal lines resolve and pass both checks, and words are put in place as they are. -/
theorem wellFormedProgramsLoad : Obligations.WellFormedProgramsLoad := by
  refine ⟨fun lines hlegal hdistinct hlast hlen hrefs => ?_, fun ws hlen => ?_⟩
  · obtain ⟨p, hp⟩ : ∃ p, resolve lines = .ok p :=
      exists_resolveFrom hlegal hdistinct fun _ _ _ _ hdecl => absurd hdecl.choose_spec List.not_mem_nil
    have hentries : p.entries = Spec.lineEntries lines := resolveFrom_entries hp
    have hlen' : p.entries.length ≤ Config.maxProgramLength := hentries ▸ hlen
    have hdecl : ∀ r name, Entry.record r ∈ p.entries → Spec.refersTo r = some name → Declares p name :=
      fun r name hr href => (resolveFrom_declares_iff hp).mpr (.inr (hrefs r name (hentries ▸ hr) href))
    have hc : endCheck p = none :=
      Option.or_eq_none_iff.mpr ⟨trailingLabel_of_getLast hp hlast hlen', unresolvedFrom_of_declared hdecl⟩
    exact ⟨_, loadLines_of_endCheck hp hlen' hc, boot_status p, hentries, boot_atReset p⟩
  · exact ⟨_, loadWords_of_le hlen, boot_status _, boot_program _, boot_labels _, boot_atReset _⟩

end Sys2Proof.Machine
end

section
/-! # The data memory

Bit `i` of the `n` bytes at `a` is bit `i % 8` of the byte at `a + i / 8` (rule R32). Every access is compared with
every other through that one reading of bytes as bits, and through the laws of `readByte` after `writeLE`. -/

namespace Sys2Proof.Machine

variable {s t u : State} {m : Memory} {a n i : Nat} {ea : Int}

/-! ## Bytes and bits (rules R32, R36 and R47) -/

theorem getLsbD_readLE (m : Memory) (a : Nat) (hi : i < 8 * n) :
    (m.readLE a n).getLsbD i = (m.readByte (a + i / 8)).getLsbD (i % 8) := by
  have hbyte := extract_readLE (m := m) (a := a) (n := n) (k := i / 8) (by omega)
  rw [← hbyte, BitVec.getLsbD_extractLsb', Nat.div_add_mod]
  simp [Nat.mod_lt]

/-- Bit `i` of the value written is a bit of the byte at `a + i / 8` afterwards (rule R37). -/
theorem getLsbD_readByte_writeLE_inside (hm : m.wf) (h : a + n ≤ Config.addressCeiling + 1) (v : BitVec (8 * n))
    (hi : i < 8 * n) : ((m.writeLE a n v).readByte (a + i / 8)).getLsbD (i % 8) = v.getLsbD i := by
  rw [← getLsbD_readLE _ a hi, readLE_writeLE_same hm h]

/-- The last byte of an aligned access inside the data space is inside it too. -/
theorem aligned_inside (hn : AccessWidth n) (ha : a ≤ Config.addressCeiling) (hal : a % n = 0) :
    a + n ≤ Config.addressCeiling + 1 := by
  unfold Config.addressCeiling at *
  rcases hn with rfl | rfl | rfl <;> omega

/-- An aligned access of 1, 2 or 4 bytes does not leave the word that contains its address. -/
theorem aligned_within_word (hn : AccessWidth n) (hal : a % n = 0) : a % 4 + n ≤ 4 := by
  rcases hn with rfl | rfl | rfl <;> omega

/-- An access that stays in its word reads bits `8*(a mod 4)` and up of that word (rule R47). -/
theorem readLE_eq_extract_word (m : Memory) (hin : a % 4 + n ≤ 4) :
    m.readLE a n = (m.readLE (a - a % 4) 4).extractLsb' (8 * (a % 4)) (8 * n) := by
  refine BitVec.eq_of_getLsbD_eq fun i hi => ?_
  rw [BitVec.getLsbD_extractLsb', getLsbD_readLE m a hi, getLsbD_readLE m _ (by omega),
    show a - a % 4 + (8 * (a % 4) + i) / 8 = a + i / 8 by omega, show (8 * (a % 4) + i) % 8 = i % 8 by omega]
  simp [hi]

/-- A write replaces bits `8*(a mod 4)` and up of the word that contains its address, and no other (rule R47). -/
theorem getLsbD_word_writeLE (hm : m.wf) (h : a + n ≤ Config.addressCeiling + 1)
    (v : BitVec (8 * n)) {k : Nat} (hk : k < 32) :
    ((m.writeLE a n v).readLE (a - a % 4) 4).getLsbD k =
      if 8 * (a % 4) ≤ k ∧ k < 8 * (a % 4) + 8 * n then v.getLsbD (k - 8 * (a % 4))
      else (m.readLE (a - a % 4) 4).getLsbD k := by
  rw [getLsbD_readLE _ _ hk]
  split
  next hbits =>
    rw [← getLsbD_readByte_writeLE_inside hm h v (i := k - 8 * (a % 4)) (by omega),
      show a + (k - 8 * (a % 4)) / 8 = a - a % 4 + k / 8 by omega, show (k - 8 * (a % 4)) % 8 = k % 8 by omega]
  next hbits => rw [readByte_writeLE_outside v (by omega), getLsbD_readLE m _ hk]

/-- Settles O38: an access that R34 admits stays in its word, and a bit of a byte is a bit of the word. -/
theorem subwordAccessInTheContainingWord : Obligations.SubwordAccessInTheContainingWord := by
  intro m ea n hm hn hea hal
  exact ⟨readLE_eq_extract_word m (aligned_within_word hn hal),
    fun v k hk => getLsbD_word_writeLE hm (aligned_inside hn hea hal) v hk⟩

/-! ## `MemRead` and `MemWrite` (rules R36 and R37) -/

theorem accessFault_of_not_inBounds (h : ¬ Spec.InBounds ea) (n : Nat) :
    accessFault ea n = some .addressOutOfBounds :=
  accessFault_outOfBounds (by unfold Config.addressCeiling; omega)

theorem accessFault_of_inBounds (h : Spec.InBounds ea) (hal : ea % n = 0) : accessFault ea n = none :=
  accessFault_none_iff.mpr ⟨h.1, h.2, hal⟩

theorem accessFault_of_inBounds_misaligned (h : Spec.InBounds ea) (hal : ea % n ≠ 0) :
    accessFault ea n = some .addressMisaligned :=
  accessFault_misaligned h.1 h.2 hal

theorem readLE_one (m : Memory) (a : Nat) : m.readLE a 1 = m.readByte a :=
  BitVec.zero_width_append (m.readLE (a + 1) 0) (m.readByte a)

theorem readLE_two (m : Memory) (a : Nat) : m.readLE a 2 = m.readByte (a + 1) ++ m.readByte a :=
  congrArg (· ++ m.readByte a) (readLE_one m (a + 1))

theorem readLE_four (m : Memory) (a : Nat) :
    m.readLE a 4 = m.readByte (a + 3) ++ m.readByte (a + 2) ++ m.readByte (a + 1) ++ m.readByte a :=
  congrArg (· ++ m.readByte (a + 1) ++ m.readByte a) (readLE_two m (a + 2))

/-- Settles O39: the two faults in their order, and the value by the number of bytes. -/
theorem memReadChecksThenReads : Obligations.MemReadChecksThenReads := by
  intro m ea
  refine ⟨fun n h => memRead_of_some (accessFault_of_not_inBounds h n),
    fun n h hal => memRead_of_some (accessFault_of_inBounds_misaligned h hal), fun h => ?_, fun h hal => ?_,
    fun h hal => ?_⟩
  · rw [memRead_of_none (accessFault_of_inBounds h (Int.emod_one ea)), readLE_one]
  · rw [memRead_of_none (accessFault_of_inBounds h hal), readLE_two]
  · rw [memRead_of_none (accessFault_of_inBounds h hal), readLE_four]

/-- Settles O40: the two faults in their order, and the laws of `writeLE` at an address that the checks admit. -/
theorem memWriteChecksThenWrites : Obligations.MemWriteChecksThenWrites := by
  intro m ea n v hm hn
  refine ⟨fun h => memWrite_of_some (accessFault_of_not_inBounds h n),
    fun h hal => memWrite_of_some (accessFault_of_inBounds_misaligned h hal), fun h hal => ?_⟩
  have hok := accessFault_of_inBounds h hal
  have hin := access_inside hn hok
  exact ⟨_, memWrite_of_none hok, wf_writeLE hm hin v, fun k hk => readByte_writeLE_inside hm hin v hk,
    fun b hb => readByte_writeLE_outside v hb⟩

/-! ## A load after a store (rules R41 and R213) -/

/-- An instruction whose outcome is a result written and the pc advanced changes nothing else. -/
theorem execWrites_of_writeResult {i : Instr} {rd : Reg} {v : Word} (h : exec i s = writeResult rd v s) :
    ExecWrites i s rd v := by
  refine ⟨_, h, ⟨?_, fun r hr => ?_⟩, ?_, fun b => ?_, ?_, ?_, ?_⟩
  · rw [advance_readReg, readReg_writeReg_same]
  · rw [advance_readReg, readReg_writeReg_ne s rd r v hr]
  · rw [advance_pc, writeReg_nextPc, nextPc_eq_w32]
  · rw [advance_mem, writeReg_mem]
  · rw [advance_status, writeReg_status]
  · rw [advance_program, writeReg_program]
  · rw [advance_labels, writeReg_labels]

/-- From a store that leaves the status `Running`, the checks have admitted its access and its bytes are written. -/
theorem store_running {rs rbase : Reg} {imm : Int} (h : store n rs rbase imm s = .next t)
    (hr : t.status = .running) :
    accessFault (s.effectiveAddress rbase imm) n = none ∧
      t.mem = s.mem.writeLE (s.effectiveAddress rbase imm).toNat n ((s.readReg rs).setWidth (8 * n)) := by
  cases hf : accessFault (s.effectiveAddress rbase imm) n with
  | none => rw [store_ok hf] at h; cases h; exact ⟨rfl, rfl⟩
  | some kind => rw [store_fault hf] at h; cases h; cases hr

/-- A load of the address and width of a store, from the memory it left, extends the low `n` bytes of the register. -/
theorem load_after_store (hn : AccessWidth n) {rs rbase : Reg} {imm : Int} (hm : s.mem.wf)
    (h : store n rs rbase imm s = .next t) (hr : t.status = .running) (hmem : u.mem = t.mem)
    (hbase : u.readReg rbase = s.readReg rbase) (rd : Reg) {ext : BitVec (8 * n) → Word} {v : Word}
    (hv : ext ((s.readReg rs).setWidth (8 * n)) = v) : load n ext rd rbase imm u = writeResult rd v u := by
  obtain ⟨hf, ht⟩ := store_running h hr
  have hea : u.effectiveAddress rbase imm = s.effectiveAddress rbase imm := effectiveAddress_congr imm hbase
  rw [load_ok (hea ▸ hf), hea, hmem, ht, readLE_writeLE_same hm (access_inside hn hf), hv]
  rfl

/-- The low `k` bits of a register, zero-extended. -/
theorem setWidth_setWidth_eq_w32 (x : Word) (k : Nat) :
    (x.setWidth k).setWidth 32 = w32 ((x.toNat : Int) % (2 ^ k : Nat)) := by
  rw [← Int.natCast_emod, w32, BitVec.ofInt_natCast]
  apply BitVec.eq_of_toNat_eq
  simp

/-- Settles O37: one lemma for the three widths, and what each load makes of the bytes. -/
theorem loadAfterStoreReadsWhatWasStored : Obligations.LoadAfterStoreReadsWhatWasStored := by
  intro s t u rs rd rbase imm hm hr hmem hbase
  refine ⟨fun h => execWrites_of_writeResult ?_, fun h => execWrites_of_writeResult ?_,
    fun h => execWrites_of_writeResult ?_⟩
  · exact load_after_store (by decide) hm h hr hmem hbase rd (BitVec.setWidth_eq _)
  · exact load_after_store (by decide) hm h hr hmem hbase rd (setWidth_setWidth_eq_w32 _ 16)
  · exact load_after_store (by decide) hm h hr hmem hbase rd (setWidth_setWidth_eq_w32 _ 8)

/-! ## The program and the host's `clear` (rules R44 and R46) -/

theorem Effect.sameProgram (he : Effect s t) : s.SameProgram t := by
  cases he with
  | write rd v => exact ⟨writeReg_program s rd v, writeReg_labels s rd v⟩
  | jump rd v target => exact ⟨writeReg_program s rd v, writeReg_labels s rd v⟩
  | store ea n x => exact ⟨rfl, rfl⟩
  | fault kind => exact ⟨rfl, rfl⟩

/-- Settles O13: a HALT, a fault and each effect of an instruction leave the program in place. -/
theorem programNeverChanges : Obligations.ProgramNeverChanges := by
  intro s t h
  obtain ⟨-, ⟨-, rfl⟩ | ⟨e, -, ⟨kind, -, rfl⟩ | ⟨i, -, hx⟩⟩⟩ := step_cases h
  · exact ⟨halt_program s, halt_labels s⟩
  · exact ⟨raiseFault_program s kind, raiseFault_labels s kind⟩
  · exact (effect_of_exec hx).sameProgram

theorem hostClear_of_running (h : s.status = .running) : hostClear s = .refused .moveDuringRun :=
  if_pos h

theorem hostClear_of_not_running (h : s.status ≠ .running) : hostClear s = .next { s with mem := [] } :=
  if_neg h

/-- Settles O41: `clear` puts the empty memory in place, of which every byte reads as zero, or is refused. -/
theorem clearZeroesTheMemory : Obligations.ClearZeroesTheMemory := fun s =>
  ⟨hostClear_of_running, fun h => ⟨_, hostClear_of_not_running h, fun _ => readByte_nil,
    fun r => withMem_readReg s r [], rfl, rfl, rfl, rfl⟩⟩

end Sys2Proof.Machine
end

section
/-! # Words and their formats

Each format of rule R71 both ways: the fields read back what the encoder put in, and a word is put together from its
fields. The field values are compared as numbers (`encI_toNat` and its like). -/

namespace Sys2Proof

/-! ## Fields as numbers -/

/-- `funct3 = w[14:12]` (rule R71). -/
def funct3Field (w : Word) : BitVec 3 := w.extractLsb' 12 3

/-- `funct7 = w[31:25]` (rule R71). -/
def funct7Field (w : Word) : BitVec 7 := w.extractLsb' 25 7

/-- `opcode = w[6:0]` (rule R71). -/
def opField (w : Word) : BitVec 7 := w.extractLsb' 0 7

variable (w : Word)

theorem rdField_val : (rdField w).val = w.toNat / 2 ^ 7 % 32 := extract_toNat w 7 5
theorem rs1Field_val : (rs1Field w).val = w.toNat / 2 ^ 15 % 32 := extract_toNat w 15 5
theorem rs2Field_val : (rs2Field w).val = w.toNat / 2 ^ 20 % 32 := extract_toNat w 20 5
theorem shamtField_eq : shamtField w = w.toNat / 2 ^ 20 % 32 := extract_toNat w 20 5
theorem upperField_eq : upperField w = w.toNat / 2 ^ 12 % 1048576 := extract_toNat w 12 20
theorem funct3Field_toNat : (funct3Field w).toNat = w.toNat / 2 ^ 12 % 8 := extract_toNat w 12 3
theorem funct7Field_toNat : (funct7Field w).toNat = w.toNat / 2 ^ 25 % 128 := extract_toNat w 25 7
theorem opField_toNat : (opField w).toNat = w.toNat % 128 :=
  (extract_toNat w 0 7).trans (by rw [pow_zero, Nat.div_one]; rfl)

/-! ## Immediates: the bits, and their sign extension -/

/-- The bits that `immS` sign-extends (rule R72). -/
def bitsS : BitVec 12 := w.extractLsb' 25 7 ++ w.extractLsb' 7 5

/-- The bits that `immB` sign-extends (rule R72). -/
def bitsB : BitVec 13 :=
  w.extractLsb' 31 1 ++ w.extractLsb' 7 1 ++ w.extractLsb' 25 6 ++ w.extractLsb' 8 4 ++ 0#1

/-- The bits that `immJ` sign-extends (rule R72). -/
def bitsJ : BitVec 21 :=
  w.extractLsb' 31 1 ++ w.extractLsb' 12 8 ++ w.extractLsb' 20 1 ++ w.extractLsb' 21 10 ++ 0#1

theorem immI_toInt : (immI w).toInt = (w.extractLsb' 20 12).toInt := BitVec.toInt_signExtend_of_le (by decide)
theorem immS_toInt : (immS w).toInt = (bitsS w).toInt := BitVec.toInt_signExtend_of_le (by decide)
theorem immB_eq : immB w = (bitsB w).signExtend 32 := rfl
theorem immJ_eq : immJ w = (bitsJ w).signExtend 32 := rfl

theorem bitsS_toNat : (bitsS w).toNat = w.toNat / 2 ^ 25 % 128 * 32 + w.toNat / 2 ^ 7 % 32 := by
  unfold bitsS
  simp only [append_toNat, extract_toNat, Nat.reducePow]

theorem bitsB_toNat : (bitsB w).toNat = ((w.toNat / 2 ^ 31 % 2 * 2 + w.toNat / 2 ^ 7 % 2) * 64 +
    w.toNat / 2 ^ 25 % 64) * 32 + w.toNat / 2 ^ 8 % 16 * 2 := by
  refine (append_toNat _ _).trans ?_
  simp only [append_toNat, extract_toNat, Nat.reducePow, BitVec.toNat_zero]
  omega

theorem bitsJ_toNat : (bitsJ w).toNat = ((w.toNat / 2 ^ 31 % 2 * 256 + w.toNat / 2 ^ 12 % 256) * 2 +
    w.toNat / 2 ^ 20 % 2) * 2048 + w.toNat / 2 ^ 21 % 1024 * 2 := by
  refine (append_toNat _ _).trans ?_
  simp only [append_toNat, extract_toNat, Nat.reducePow, BitVec.toNat_zero]
  omega

/-- Narrowing undoes a sign extension. -/
theorem setWidth_signExtend {n : Nat} (h : n ≤ 32) (x : BitVec n) : (x.signExtend 32).setWidth n = x := by
  ext k hk
  simp [BitVec.getElem_signExtend, hk, show k < 32 by omega]

theorem immB_toNat_mod : (immB w).toNat % 2 ^ 13 = ((w.toNat / 2 ^ 31 % 2 * 2 + w.toNat / 2 ^ 7 % 2) * 64 +
    w.toNat / 2 ^ 25 % 64) * 32 + w.toNat / 2 ^ 8 % 16 * 2 := by
  rw [← BitVec.toNat_setWidth, immB_eq, setWidth_signExtend (by decide), bitsB_toNat]

theorem immJ_toNat_mod : (immJ w).toNat % 2 ^ 21 = ((w.toNat / 2 ^ 31 % 2 * 256 + w.toNat / 2 ^ 12 % 256) * 2 +
    w.toNat / 2 ^ 20 % 2) * 2048 + w.toNat / 2 ^ 21 % 1024 * 2 := by
  rw [← BitVec.toNat_setWidth, immJ_eq, setWidth_signExtend (by decide), bitsJ_toNat]

/-- A word whose signed value fits in `n` bits is the sign extension of its low `n` bits. -/
theorem signExtend_setWidth {n : Nat} (h : n ≤ 32) {x : Word} (hlo : -2 ^ n ≤ x.toInt * 2) (hhi : x.toInt * 2 < 2 ^ n) :
    (x.setWidth n).signExtend 32 = x := by
  apply BitVec.toInt_inj.mp
  calc ((x.setWidth n).signExtend 32).toInt
      = (x.toNat : Int).bmod (2 ^ n) := by rw [BitVec.toInt_signExtend_of_le h, BitVec.toInt_setWidth]
    _ = x.toInt.bmod (2 ^ n) := by rw [BitVec.toInt_eq_toNat_bmod, Int.bmod_bmod_of_dvd (Nat.pow_dvd_pow 2 h)]
    _ = x.toInt := Int.bmod_eq_of_le_mul_two (by exact_mod_cast hlo) (by exact_mod_cast hhi)

/-- A 12-bit immediate is the signed value of its 12 bits. -/
theorem toInt_ofInt_of_immOk {imm : Int} (h : immOk imm = true) : (BitVec.ofInt 12 imm).toInt = imm := by
  obtain ⟨hlo, hhi⟩ := immOk_iff.mp h
  rw [BitVec.toInt_ofInt]
  exact Int.bmod_eq_of_le_mul_two (by omega) (by omega)

theorem immOk_toInt (x : BitVec 12) : immOk x.toInt = true :=
  immOk_iff.mpr ⟨x.le_toInt, Int.le_of_lt_add_one x.toInt_lt⟩

/-! ## Digits of a layout

`omega` reads the digits off a number that is written with one bounded variable for each of them. -/

theorem digitsS {n i1 r2 r1 f i0 op : Nat} (h1 : i1 < 128) (h2 : r2 < 32) (h3 : r1 < 32) (h4 : f < 8) (h5 : i0 < 32)
    (h6 : op < 128) (hn : n = ((((i1 * 32 + r2) * 32 + r1) * 8 + f) * 32 + i0) * 128 + op) :
    n / 2 ^ 25 % 128 = i1 ∧ n / 2 ^ 20 % 32 = r2 ∧ n / 2 ^ 15 % 32 = r1 ∧ n / 2 ^ 7 % 32 = i0 := by
  omega

theorem digitsB {n b12 b10 r2 r1 f b4 b11 op : Nat} (h1 : b12 < 2) (h2 : b10 < 64) (h3 : r2 < 32) (h4 : r1 < 32)
    (h5 : f < 8) (h6 : b4 < 16) (h7 : b11 < 2) (h8 : op < 128)
    (hn : n = ((((((b12 * 64 + b10) * 32 + r2) * 32 + r1) * 8 + f) * 16 + b4) * 2 + b11) * 128 + op) :
    n / 2 ^ 31 % 2 = b12 ∧ n / 2 ^ 25 % 64 = b10 ∧ n / 2 ^ 20 % 32 = r2 ∧ n / 2 ^ 15 % 32 = r1 ∧
      n / 2 ^ 8 % 16 = b4 ∧ n / 2 ^ 7 % 2 = b11 := by
  omega

theorem digitsJ {n b20 b10 b11 b19 rd op : Nat} (h1 : b20 < 2) (h2 : b10 < 1024) (h3 : b11 < 2) (h4 : b19 < 256)
    (h5 : rd < 32) (h6 : op < 128)
    (hn : n = ((((b20 * 1024 + b10) * 2 + b11) * 256 + b19) * 32 + rd) * 128 + op) :
    n / 2 ^ 31 % 2 = b20 ∧ n / 2 ^ 21 % 1024 = b10 ∧ n / 2 ^ 20 % 2 = b11 ∧ n / 2 ^ 12 % 256 = b19 ∧
      n / 2 ^ 7 % 32 = rd := by
  omega

theorem digits_offsetB {v b12 b11 b10 b4 : Nat} (h1 : b11 < 2) (h2 : b10 < 64) (h3 : b4 < 16)
    (hv : v % 2 ^ 13 = ((b12 * 2 + b11) * 64 + b10) * 32 + b4 * 2) :
    v / 4096 % 2 = b12 ∧ v / 2048 % 2 = b11 ∧ v / 32 % 64 = b10 ∧ v / 2 % 16 = b4 := by
  omega

theorem digits_offsetJ {v b20 b19 b11 b10 : Nat} (h1 : b19 < 256) (h2 : b11 < 2) (h3 : b10 < 1024)
    (hv : v % 2 ^ 21 = ((b20 * 256 + b19) * 2 + b11) * 2048 + b10 * 2) :
    v / 1048576 % 2 = b20 ∧ v / 4096 % 256 = b19 ∧ v / 2048 % 2 = b11 ∧ v / 2 % 1024 = b10 := by
  omega

theorem offsetB_of_digits {v : Nat} (heven : v % 2 = 0) :
    ((v / 4096 % 2 * 2 + v / 2048 % 2) * 64 + v / 32 % 64) * 32 + v / 2 % 16 * 2 = v % 2 ^ 13 := by
  omega

theorem offsetJ_of_digits {v : Nat} (heven : v % 2 = 0) :
    ((v / 1048576 % 2 * 256 + v / 4096 % 256) * 2 + v / 2048 % 2) * 2048 + v / 2 % 1024 * 2 = v % 2 ^ 21 := by
  omega

theorem wordB_of_digits {n : Nat} (h : n < 2 ^ 32) :
    ((((((n / 2 ^ 31 % 2 * 64 + n / 2 ^ 25 % 64) * 32 + n / 2 ^ 20 % 32) * 32 + n / 2 ^ 15 % 32) * 8 +
      n / 2 ^ 12 % 8) * 16 + n / 2 ^ 8 % 16) * 2 + n / 2 ^ 7 % 2) * 128 + n % 128 = n := by
  omega

theorem wordJ_of_digits {n : Nat} (h : n < 2 ^ 32) :
    ((((n / 2 ^ 31 % 2 * 1024 + n / 2 ^ 21 % 1024) * 2 + n / 2 ^ 20 % 2) * 256 + n / 2 ^ 12 % 256) * 32 +
      n / 2 ^ 7 % 32) * 128 + n % 128 = n := by
  omega

/-! ## The fields read back from an encoding (rules R71 and R72) -/

variable (funct7 : BitVec 7) (rs2 rs1 rd : Reg) (funct3 : BitVec 3) (op : BitVec 7)

theorem fields_encR (b2 : BitVec 5) :
    rdField (encR funct7 b2 (regBits rs1) funct3 (regBits rd) op) = rd ∧
    rs1Field (encR funct7 b2 (regBits rs1) funct3 (regBits rd) op) = rs1 ∧
    (encR funct7 b2 (regBits rs1) funct3 (regBits rd) op).extractLsb' 20 5 = b2 := by
  have hn := encR_toNat funct7 b2 (regBits rs1) funct3 (regBits rd) op
  rw [regBits_toNat, regBits_toNat] at hn
  refine ⟨Fin.ext ?_, Fin.ext ?_, BitVec.eq_of_toNat_eq ?_⟩
  · rw [rdField_val]; omega
  · rw [rs1Field_val]; omega
  · rw [extract_toNat]; omega

theorem fields_encI (imm : Int) :
    rdField (encI imm rs1 funct3 rd op) = rd ∧ rs1Field (encI imm rs1 funct3 rd op) = rs1 ∧
    (encI imm rs1 funct3 rd op).extractLsb' 20 12 = BitVec.ofInt 12 imm := by
  have hn := encI_toNat imm rs1 funct3 rd op
  refine ⟨Fin.ext ?_, Fin.ext ?_, BitVec.eq_of_toNat_eq ?_⟩
  · rw [rdField_val]; omega
  · rw [rs1Field_val]; omega
  · rw [extract_toNat]; omega

theorem fields_encS (imm : Int) :
    rs2Field (encS imm rs2 rs1 funct3 op) = rs2 ∧ rs1Field (encS imm rs2 rs1 funct3 op) = rs1 ∧
    bitsS (encS imm rs2 rs1 funct3 op) = BitVec.ofInt 12 imm := by
  obtain ⟨h25, h20, h15, h7⟩ := digitsS (Nat.mod_lt _ (by decide)) rs2.isLt rs1.isLt funct3.isLt
    (Nat.mod_lt _ (by decide)) op.isLt (encS_toNat imm rs2 rs1 funct3 op)
  refine ⟨Fin.ext ((rs2Field_val _).trans h20), Fin.ext ((rs1Field_val _).trans h15), BitVec.eq_of_toNat_eq ?_⟩
  rw [bitsS_toNat, h25, h7]
  omega

theorem fields_encB {off : Word} (heven : off.toNat % 2 = 0) :
    rs1Field (encB off rs2 rs1 funct3 op) = rs1 ∧ rs2Field (encB off rs2 rs1 funct3 op) = rs2 ∧
    bitsB (encB off rs2 rs1 funct3 op) = off.setWidth 13 := by
  obtain ⟨h31, h25, h20, h15, h8, h7⟩ := digitsB (Nat.mod_lt _ (by decide)) (Nat.mod_lt _ (by decide)) rs2.isLt
    rs1.isLt funct3.isLt (Nat.mod_lt _ (by decide)) (Nat.mod_lt _ (by decide)) op.isLt
    (encB_toNat off rs2 rs1 funct3 op)
  refine ⟨Fin.ext ((rs1Field_val _).trans h15), Fin.ext ((rs2Field_val _).trans h20), BitVec.eq_of_toNat_eq ?_⟩
  rw [bitsB_toNat, BitVec.toNat_setWidth, h31, h7, h25, h8]
  exact offsetB_of_digits heven

theorem fields_encU {imm : Nat} (h : upperOk imm = true) :
    rdField (encU imm rd op) = rd ∧ upperField (encU imm rd op) = imm := by
  have hn := encU_toNat imm rd op
  have hle := upperOk_iff.mp h
  refine ⟨Fin.ext ?_, ?_⟩
  · rw [rdField_val]; omega
  · rw [upperField_eq]; omega

theorem fields_encJ {off : Word} (heven : off.toNat % 2 = 0) :
    rdField (encJ off rd op) = rd ∧ bitsJ (encJ off rd op) = off.setWidth 21 := by
  obtain ⟨h31, h21, h20, h12, h7⟩ := digitsJ (Nat.mod_lt _ (by decide)) (Nat.mod_lt _ (by decide))
    (Nat.mod_lt _ (by decide)) (Nat.mod_lt _ (by decide)) rd.isLt op.isLt (encJ_toNat off rd op)
  refine ⟨Fin.ext ((rdField_val _).trans h7), BitVec.eq_of_toNat_eq ?_⟩
  rw [bitsJ_toNat, BitVec.toNat_setWidth, h31, h12, h20, h21]
  exact offsetJ_of_digits heven

/-! ## A word is its fields put together -/

theorem encR_of_fields :
    encR (funct7Field w) (w.extractLsb' 20 5) (regBits (rs1Field w)) (funct3Field w) (regBits (rdField w)) (opField w) =
      w := by
  apply BitVec.eq_of_toNat_eq
  rw [encR_toNat, funct7Field_toNat, extract_toNat, regBits_toNat, rs1Field_val, funct3Field_toNat, regBits_toNat,
    rdField_val, opField_toNat]
  omega

theorem encI_of_fields : encI (immI w).toInt (rs1Field w) (funct3Field w) (rdField w) (opField w) = w := by
  apply BitVec.eq_of_toNat_eq
  rw [encI_toNat, immI_toInt, BitVec.ofInt_toInt, extract_toNat, rs1Field_val, funct3Field_toNat, rdField_val,
    opField_toNat]
  omega

theorem encS_of_fields : encS (immS w).toInt (rs2Field w) (rs1Field w) (funct3Field w) (opField w) = w := by
  apply BitVec.eq_of_toNat_eq
  rw [encS_toNat, immS_toInt, BitVec.ofInt_toInt, bitsS_toNat, rs2Field_val, rs1Field_val, funct3Field_toNat,
    opField_toNat]
  omega

theorem encB_of_fields : encB (immB w) (rs2Field w) (rs1Field w) (funct3Field w) (opField w) = w := by
  obtain ⟨h1, h2, h3, h4⟩ := digits_offsetB (Nat.mod_lt _ (by decide)) (Nat.mod_lt _ (by decide))
    (Nat.mod_lt _ (by decide)) (immB_toNat_mod w)
  apply BitVec.eq_of_toNat_eq
  rw [encB_toNat, h1, h2, h3, h4, rs2Field_val, rs1Field_val, funct3Field_toNat, opField_toNat]
  exact wordB_of_digits w.isLt

theorem encU_of_fields : encU (upperField w) (rdField w) (opField w) = w := by
  apply BitVec.eq_of_toNat_eq
  rw [encU_toNat, upperField_eq, rdField_val, opField_toNat]
  omega

theorem encJ_of_fields : encJ (immJ w) (rdField w) (opField w) = w := by
  obtain ⟨h1, h2, h3, h4⟩ := digits_offsetJ (Nat.mod_lt _ (by decide)) (Nat.mod_lt _ (by decide))
    (Nat.mod_lt _ (by decide)) (immJ_toNat_mod w)
  apply BitVec.eq_of_toNat_eq
  rw [encJ_toNat, h1, h2, h3, h4, rdField_val, opField_toNat]
  exact wordJ_of_digits w.isLt

end Sys2Proof
end

section
/-! # Decode and encode are inverse to each other

`Row.Coded` says once, by format, what the model knows of the instructions of a row: mnemonic, ranges, reach and word.
The two round trips and the well-formedness of what is decoded follow from it for each format. -/

namespace Sys2Proof

/-! ## What a row says of its instructions -/

/-- The instruction has the mnemonic of the row, and these ranges, this reach and this word at each address. -/
structure Row.Describes (r : Row) (i : Instr) (wf : Bool) (reach : Word → Bool) (word : Word → Word) : Prop where
  mnemonic : i.mnemonic = r.mnemonic
  wf : i.wf = wf
  encodable : ∀ pc, i.encodable pc = reach pc
  encode : ∀ pc, encode pc i = word pc

/-- The pattern of the row has these fields, and no other bit is set. -/
def Row.Fixes (r : Row) (funct7 : BitVec 7) (funct3 : BitVec 3) : Prop :=
  r.pattern = encR funct7 0#5 0#5 funct3 0#5 (opField r.pattern)

/-- A row of format I: the shapes `JR`, `L` and `I`. -/
def Row.CodedI (r : Row) (make : Reg → Reg → Int → Instr) : Prop :=
  r.mask = 0x707F#32 ∧ r.Fixes 0#7 (funct3Field r.pattern) ∧ ∀ rd rs1 imm, r.Describes (make rd rs1 imm) (immOk imm)
    (fun _ => true) fun _ => encI imm rs1 (funct3Field r.pattern) rd (opField r.pattern)

/-- The row's mask and pattern, and its instructions, are those of the format of its shape (rules R71 to R73). -/
def Row.Coded (r : Row) : Prop :=
  match r.form with
  | .u make => r.mask = 0x7F#32 ∧ r.Fixes 0#7 0#3 ∧ ∀ rd imm, r.Describes (make rd imm) (upperOk imm) (fun _ => true)
      fun _ => encU imm rd (opField r.pattern)
  | .j make => r.mask = 0x7F#32 ∧ r.Fixes 0#7 0#3 ∧ ∀ rd target, r.Describes (make rd target) true (jumpReach · target)
      fun pc => encJ (target - pc) rd (opField r.pattern)
  | .b make => r.mask = 0x707F#32 ∧ r.Fixes 0#7 (funct3Field r.pattern) ∧ ∀ rs1 rs2 target,
      r.Describes (make rs1 rs2 target) true (branchReach · target)
        fun pc => encB (target - pc) rs2 rs1 (funct3Field r.pattern) (opField r.pattern)
  | .s make => r.mask = 0x707F#32 ∧ r.Fixes 0#7 (funct3Field r.pattern) ∧ ∀ rs2 rs1 imm,
      r.Describes (make rs2 rs1 imm) (immOk imm) (fun _ => true)
        fun _ => encS imm rs2 rs1 (funct3Field r.pattern) (opField r.pattern)
  | .sh make => r.mask = 0xFE00707F#32 ∧ r.Fixes (funct7Field r.pattern) (funct3Field r.pattern) ∧ ∀ rd rs1 shamt,
      r.Describes (make rd rs1 shamt) (shamtOk shamt) (fun _ => true) fun _ => encR (funct7Field r.pattern)
        (BitVec.ofNat 5 shamt) (regBits rs1) (funct3Field r.pattern) (regBits rd) (opField r.pattern)
  | .r make => r.mask = 0xFE00707F#32 ∧ r.Fixes (funct7Field r.pattern) (funct3Field r.pattern) ∧ ∀ rd rs1 rs2,
      r.Describes (make rd rs1 rs2) true (fun _ => true) fun _ => encR (funct7Field r.pattern)
        (regBits rs2) (regBits rs1) (funct3Field r.pattern) (regBits rd) (opField r.pattern)
  | .jr make | .l make | .i make => r.CodedI make

theorem rowsUpper_coded : ∀ r ∈ rowsUpper, r.Coded := by
  rw [← List.forall_iff_forall_mem]
  exact ⟨rfl, rfl, fun _ _ => ⟨rfl, rfl, fun _ => rfl, fun _ => rfl⟩⟩

theorem rowsJump_coded : ∀ r ∈ rowsJump, r.Coded := by
  rw [← List.forall_iff_forall_mem]
  exact ⟨⟨rfl, rfl, fun _ _ => ⟨rfl, rfl, fun _ => rfl, fun _ => rfl⟩⟩,
    rfl, rfl, fun _ _ _ => ⟨rfl, rfl, fun _ => rfl, fun _ => rfl⟩⟩

theorem rowsBranch_coded : ∀ r ∈ rowsBranch, r.Coded := by
  rw [← List.forall_iff_forall_mem]
  refine ⟨?_, ?_, ?_, ?_, ?_, ?_⟩ <;> exact ⟨rfl, rfl, fun _ _ _ => ⟨rfl, rfl, fun _ => rfl, fun _ => rfl⟩⟩

theorem rowsLoad_coded : ∀ r ∈ rowsLoad, r.Coded := by
  rw [← List.forall_iff_forall_mem]
  refine ⟨?_, ?_, ?_, ?_, ?_⟩ <;> exact ⟨rfl, rfl, fun _ _ _ => ⟨rfl, rfl, fun _ => rfl, fun _ => rfl⟩⟩

theorem rowsStore_coded : ∀ r ∈ rowsStore, r.Coded := by
  rw [← List.forall_iff_forall_mem]
  refine ⟨?_, ?_, ?_⟩ <;> exact ⟨rfl, rfl, fun _ _ _ => ⟨rfl, rfl, fun _ => rfl, fun _ => rfl⟩⟩

theorem rowsAluImm_coded : ∀ r ∈ rowsAluImm, r.Coded := by
  rw [← List.forall_iff_forall_mem]
  refine ⟨?_, ?_, ?_, ?_, ?_, ?_⟩ <;> exact ⟨rfl, rfl, fun _ _ _ => ⟨rfl, rfl, fun _ => rfl, fun _ => rfl⟩⟩

theorem rowsShiftImm_coded : ∀ r ∈ rowsShiftImm, r.Coded := by
  rw [← List.forall_iff_forall_mem]
  refine ⟨?_, ?_, ?_⟩ <;> exact ⟨rfl, rfl, fun _ _ _ => ⟨rfl, rfl, fun _ => rfl, fun _ => rfl⟩⟩

theorem rowsAluReg_coded : ∀ r ∈ rowsAluReg, r.Coded := by
  rw [← List.forall_iff_forall_mem]
  refine ⟨?_, ?_, ?_, ?_, ?_, ?_, ?_, ?_, ?_, ?_⟩ <;>
    exact ⟨rfl, rfl, fun _ _ _ => ⟨rfl, rfl, fun _ => rfl, fun _ => rfl⟩⟩

/-- The opcode map, the ranges and the encoder agree on every row (rules R66 and R71 to R74). -/
theorem rows_coded : ∀ r ∈ rows, r.Coded := by
  simp only [rows, List.forall_mem_append]
  exact ⟨⟨⟨⟨⟨⟨⟨rowsUpper_coded, rowsJump_coded⟩, rowsBranch_coded⟩, rowsLoad_coded⟩, rowsStore_coded⟩,
    rowsAluImm_coded⟩, rowsShiftImm_coded⟩, rowsAluReg_coded⟩

variable {r : Row} {w pc : Word}

/-! ## A word of a row is the encoding of its fields -/

/-- Where the mask of a row looks, the words it accepts have the bits of the pattern. -/
theorem extract_of_accepts {lo len : Nat} (ha : r.accepts w = true)
    (hm : r.mask.extractLsb' lo len = BitVec.allOnes len) :
    w.extractLsb' lo len = r.pattern.extractLsb' lo len := by
  rw [← eq_of_beq ha, BitVec.extractLsb'_and, hm, BitVec.and_allOnes]

theorem opField_of_accepts (ha : r.accepts w = true) (hm : opField r.mask = BitVec.allOnes 7) :
    opField r.pattern = opField w :=
  (extract_of_accepts ha hm).symm

theorem funct3Field_of_accepts (ha : r.accepts w = true) (hm : funct3Field r.mask = BitVec.allOnes 3) :
    funct3Field r.pattern = funct3Field w :=
  (extract_of_accepts ha hm).symm

theorem funct7Field_of_accepts (ha : r.accepts w = true) (hm : funct7Field r.mask = BitVec.allOnes 7) :
    funct7Field r.pattern = funct7Field w :=
  (extract_of_accepts ha hm).symm

/-- The signed value of a word has the parity of the word. -/
theorem toInt_mod_two (x : Word) : x.toInt % 2 = x.toNat % 2 := by
  rw [BitVec.toInt_eq_toNat_cond]
  split <;> omega

theorem branchReach_immB : branchReach pc (pc + immB w) = true := by
  have hint : (immB w).toInt = (bitsB w).toInt := BitVec.toInt_signExtend_of_le (by decide)
  have hlo := (bitsB w).le_toInt
  have hhi := (bitsB w).toInt_lt
  have hnat := immB_toNat_mod w
  have heven := toInt_mod_two (immB w)
  rw [branchReach_iff, add_sub_cancel_left]
  omega

theorem jumpReach_immJ : jumpReach pc (pc + immJ w) = true := by
  have hint : (immJ w).toInt = (bitsJ w).toInt := BitVec.toInt_signExtend_of_le (by decide)
  have hlo := (bitsJ w).le_toInt
  have hhi := (bitsJ w).toInt_lt
  have hnat := immJ_toNat_mod w
  have heven := toInt_mod_two (immJ w)
  rw [jumpReach_iff, add_sub_cancel_left]
  omega

/-- `i` is an instruction of the row, within its ranges and its reach, and its word at `pc` is `w`. -/
structure Row.IsDecoded (r : Row) (w pc : Word) (i : Instr) : Prop where
  mnemonic : i.mnemonic = r.mnemonic
  wf : i.wf = true
  encodable : i.encodable pc = true
  encode : encode pc i = w

theorem Row.Describes.isDecoded {i : Instr} {wf : Bool} {reach : Word → Bool} {word : Word → Word}
    (h : r.Describes i wf reach word) (hwf : wf = true) (hreach : reach pc = true) (hword : word pc = w) :
    r.IsDecoded w pc i :=
  ⟨h.mnemonic, h.wf.trans hwf, (h.encodable pc).trans hreach, (h.encode pc).trans hword⟩

theorem Row.CodedI.isDecoded {mk : Reg → Reg → Int → Instr} (hr : r.CodedI mk) (ha : r.accepts w = true) :
    r.IsDecoded w pc (mk (rdField w) (rs1Field w) (immI w).toInt) := by
  obtain ⟨hm, -, hd⟩ := hr
  refine (hd _ _ _).isDecoded ?_ rfl ?_
  · rw [immI_toInt]
    exact immOk_toInt _
  · rw [opField_of_accepts ha (by rw [hm]; rfl), funct3Field_of_accepts ha (by rw [hm]; rfl)]
    exact encI_of_fields w

/-- The instruction a row reads from a word it accepts is well-formed, in reach, and encoded by that word. -/
theorem Row.Coded.isDecoded (hr : r.Coded) (ha : r.accepts w = true) (pc : Word) :
    r.IsDecoded w pc (r.form.ofWord w pc) := by
  unfold Row.Coded at hr
  generalize r.form = form at hr ⊢
  cases form with
  | u mk =>
    obtain ⟨hm, -, hd⟩ := hr
    refine (hd _ _).isDecoded (upperOk_iff.mpr ?_) rfl ?_
    · rw [upperField_eq]
      omega
    · rw [opField_of_accepts ha (by rw [hm]; rfl)]
      exact encU_of_fields w
  | j mk =>
    obtain ⟨hm, -, hd⟩ := hr
    refine (hd _ _).isDecoded rfl jumpReach_immJ ?_
    rw [opField_of_accepts ha (by rw [hm]; rfl), add_sub_cancel_left]
    exact encJ_of_fields w
  | b mk =>
    obtain ⟨hm, -, hd⟩ := hr
    refine (hd _ _ _).isDecoded rfl branchReach_immB ?_
    rw [opField_of_accepts ha (by rw [hm]; rfl), funct3Field_of_accepts ha (by rw [hm]; rfl), add_sub_cancel_left]
    exact encB_of_fields w
  | s mk =>
    obtain ⟨hm, -, hd⟩ := hr
    refine (hd _ _ _).isDecoded ?_ rfl ?_
    · rw [immS_toInt]
      exact immOk_toInt _
    · rw [opField_of_accepts ha (by rw [hm]; rfl), funct3Field_of_accepts ha (by rw [hm]; rfl)]
      exact encS_of_fields w
  | sh mk =>
    obtain ⟨hm, -, hd⟩ := hr
    refine (hd _ _ _).isDecoded (shamtOk_iff.mpr ?_) rfl ?_
    · rw [shamtField_eq]
      omega
    · rw [opField_of_accepts ha (by rw [hm]; rfl), funct3Field_of_accepts ha (by rw [hm]; rfl),
        funct7Field_of_accepts ha (by rw [hm]; rfl), shamtField, BitVec.ofNat_toNat, BitVec.setWidth_eq]
      exact encR_of_fields w
  | r mk =>
    obtain ⟨hm, -, hd⟩ := hr
    refine (hd _ _ _).isDecoded rfl rfl ?_
    rw [opField_of_accepts ha (by rw [hm]; rfl), funct3Field_of_accepts ha (by rw [hm]; rfl),
      funct7Field_of_accepts ha (by rw [hm]; rfl)]
    exact encR_of_fields w
  | jr mk => exact hr.isDecoded ha
  | l mk => exact hr.isDecoded ha
  | i mk => exact hr.isDecoded ha

/-- A word that decodes is, by a row of the opcode map, the word of the instruction it decodes to. -/
theorem isDecoded_of_decodeWord {i : Instr} (h : decodeWord w pc = .ok i) : ∃ r ∈ rows, r.IsDecoded w pc i := by
  obtain ⟨r, hr, ha, rfl⟩ := accepts_of_decodeWord h
  exact ⟨r, hr, (rows_coded r hr).isDecoded ha pc⟩

/-- Settles O43: a word that a row accepts is put together again from the fields the row reads. -/
theorem encodeOfDecode : Obligations.EncodeOfDecode := fun _ _ _ h => by
  obtain ⟨r, -, hd⟩ := isDecoded_of_decodeWord h
  exact hd.encode

/-- Settles O44: fields of 5, 12 and 20 bits are in range, and offsets of 13 and 21 bits in reach. -/
theorem decodedWordIsWellFormed : Obligations.DecodedWordIsWellFormed := fun _ _ _ h => by
  obtain ⟨r, -, hd⟩ := isDecoded_of_decodeWord h
  exact ⟨hd.wf, hd.encodable⟩

/-! ## An encoding is a word of the row of its instruction -/

/-- The instruction is one that the slots of this shape make. -/
def Form.Makes : Form → Instr → Prop
  | .u mk, x => ∃ rd imm, x = mk rd imm
  | .j mk, x => ∃ rd target, x = mk rd target
  | .b mk, x => ∃ rs1 rs2 target, x = mk rs1 rs2 target
  | .sh mk, x => ∃ rd rs1 shamt, x = mk rd rs1 shamt
  | .r mk, x => ∃ rd rs1 rs2, x = mk rd rs1 rs2
  | .jr mk, x | .l mk, x | .s mk, x | .i mk, x => ∃ r rs1 imm, x = mk r rs1 imm

/-- Every instruction is made by the row of its mnemonic. -/
theorem exists_row_of_instr (i : Instr) : ∃ r, rowOfOp i.mnemonic = some r ∧ r.form.Makes i := by
  cases i <;> refine ⟨_, rfl, ?_⟩ 
  case lui rd imm => exact ⟨rd, imm, rfl⟩
  case jal rd target => exact ⟨rd, target, rfl⟩
  all_goals exact ⟨_, _, _, rfl⟩

theorem toNat_even_of_toInt {x : Word} (h : x.toInt % 2 = 0) : x.toNat % 2 = 0 := by
  rw [toInt_mod_two] at h
  omega

variable (rs2 rs1 rd : Reg) (funct3 : BitVec 3) (op : BitVec 7) {imm : Int} {target : Word}

theorem immI_encI (h : immOk imm = true) : (immI (encI imm rs1 funct3 rd op)).toInt = imm := by
  obtain ⟨-, -, himm⟩ := fields_encI rs1 rd funct3 op imm
  rw [immI_toInt, himm, toInt_ofInt_of_immOk h]

theorem immS_encS (h : immOk imm = true) : (immS (encS imm rs2 rs1 funct3 op)).toInt = imm := by
  obtain ⟨-, -, himm⟩ := fields_encS rs2 rs1 funct3 op imm
  rw [immS_toInt, himm, toInt_ofInt_of_immOk h]

theorem add_immB_encB (h : branchReach pc target = true) :
    pc + immB (encB (target - pc) rs2 rs1 funct3 op) = target := by
  obtain ⟨heven, hlo, hhi⟩ := branchReach_iff.mp h
  obtain ⟨-, -, hbits⟩ := fields_encB rs2 rs1 funct3 op (toNat_even_of_toInt heven)
  rw [immB_eq, hbits, signExtend_setWidth (by decide) (by omega) (by omega), add_sub_cancel]

theorem add_immJ_encJ (h : jumpReach pc target = true) : pc + immJ (encJ (target - pc) rd op) = target := by
  obtain ⟨heven, hlo, hhi⟩ := jumpReach_iff.mp h
  obtain ⟨-, hbits⟩ := fields_encJ rd op (toNat_even_of_toInt heven)
  rw [immJ_eq, hbits, signExtend_setWidth (by decide) (by omega) (by omega), add_sub_cancel]

/-- A row accepts a word that has the fields its pattern fixes where its mask looks. -/
theorem Row.accepts_of_mask {mask : Word} {funct7 : BitVec 7} (hm : r.mask = mask) (hf : r.Fixes funct7 funct3)
    (hw : w &&& mask = encR funct7 0#5 0#5 funct3 0#5 (opField r.pattern)) : r.accepts w = true :=
  beq_iff_eq.mpr (by rw [hm, hw]; exact hf.symm)

theorem Row.CodedI.reads_encode {mk : Reg → Reg → Int → Instr} (hr : r.CodedI mk) (hw : (mk rd rs1 imm).wf = true)
    (hword : encode pc (mk rd rs1 imm) = w) :
    r.accepts w = true ∧ mk (rdField w) (rs1Field w) (immI w).toInt = mk rd rs1 imm := by
  obtain ⟨hm, hf, hd⟩ := hr
  obtain ⟨-, hwf, -, henc⟩ := hd rd rs1 imm
  obtain ⟨hrd, hrs1, -⟩ := fields_encI rs1 rd (funct3Field r.pattern) (opField r.pattern) imm
  rw [← hword, henc, hrd, hrs1, immI_encI _ _ _ _ (hwf.symm.trans hw)]
  exact ⟨Row.accepts_of_mask _ hm hf (encI_mask ..), rfl⟩

/-- The row of a well-formed instruction in reach accepts its word, and reads the instruction back from it. -/
theorem Row.Coded.reads_encode {i : Instr} (hr : r.Coded) (hi : r.form.Makes i) (hw : i.wf = true)
    (he : i.encodable pc = true) : r.accepts (encode pc i) = true ∧ r.form.ofWord (encode pc i) pc = i := by
  unfold Row.Coded at hr
  generalize r.form = form at hr hi ⊢
  cases form with
  | u mk =>
    obtain ⟨rd, imm, rfl⟩ := hi
    obtain ⟨hm, hf, hd⟩ := hr
    obtain ⟨-, hwf, -, henc⟩ := hd rd imm
    obtain ⟨hrd, himm⟩ := fields_encU rd (opField r.pattern) (hwf.symm.trans hw)
    rw [henc, Form.ofWord, hrd, himm]
    exact ⟨Row.accepts_of_mask _ hm hf (encU_mask ..), rfl⟩
  | j mk =>
    obtain ⟨rd, target, rfl⟩ := hi
    obtain ⟨hm, hf, hd⟩ := hr
    obtain ⟨-, -, hreach, henc⟩ := hd rd target
    have hreach : jumpReach pc target = true := (hreach pc).symm.trans he
    obtain ⟨hrd, -⟩ := fields_encJ rd (opField r.pattern) (toNat_even_of_toInt (jumpReach_iff.mp hreach).1)
    rw [henc, Form.ofWord, hrd, add_immJ_encJ _ _ hreach]
    exact ⟨Row.accepts_of_mask _ hm hf (encJ_mask ..), rfl⟩
  | b mk =>
    obtain ⟨rs1, rs2, target, rfl⟩ := hi
    obtain ⟨hm, hf, hd⟩ := hr
    obtain ⟨-, -, hreach, henc⟩ := hd rs1 rs2 target
    have hreach : branchReach pc target = true := (hreach pc).symm.trans he
    obtain ⟨hrs1, hrs2, -⟩ := fields_encB rs2 rs1 (funct3Field r.pattern) (opField r.pattern)
      (toNat_even_of_toInt (branchReach_iff.mp hreach).1)
    rw [henc, Form.ofWord, hrs1, hrs2, add_immB_encB _ _ _ _ hreach]
    exact ⟨Row.accepts_of_mask _ hm hf (encB_mask ..), rfl⟩
  | s mk =>
    obtain ⟨rs2, rs1, imm, rfl⟩ := hi
    obtain ⟨hm, hf, hd⟩ := hr
    obtain ⟨-, hwf, -, henc⟩ := hd rs2 rs1 imm
    obtain ⟨hrs2, hrs1, -⟩ := fields_encS rs2 rs1 (funct3Field r.pattern) (opField r.pattern) imm
    rw [henc, Form.ofWord, hrs2, hrs1, immS_encS _ _ _ _ (hwf.symm.trans hw)]
    exact ⟨Row.accepts_of_mask _ hm hf (encS_mask ..), rfl⟩
  | sh mk =>
    obtain ⟨rd, rs1, shamt, rfl⟩ := hi
    obtain ⟨hm, hf, hd⟩ := hr
    obtain ⟨-, hwf, -, henc⟩ := hd rd rs1 shamt
    have hle : shamt ≤ 31 := shamtOk_iff.mp (hwf.symm.trans hw)
    obtain ⟨hrd, hrs1, hshamt⟩ := fields_encR (funct7Field r.pattern) rs1 rd (funct3Field r.pattern)
      (opField r.pattern) (BitVec.ofNat 5 shamt)
    rw [henc, Form.ofWord, hrd, hrs1, shamtField, hshamt, BitVec.toNat_ofNat, Nat.mod_eq_of_lt (by omega)]
    exact ⟨Row.accepts_of_mask _ hm hf (encR_mask ..), rfl⟩
  | r mk =>
    obtain ⟨rd, rs1, rs2, rfl⟩ := hi
    obtain ⟨hm, hf, hd⟩ := hr
    obtain ⟨-, -, -, henc⟩ := hd rd rs1 rs2
    obtain ⟨hrd, hrs1, hrs2⟩ := fields_encR (funct7Field r.pattern) rs1 rd (funct3Field r.pattern)
      (opField r.pattern) (regBits rs2)
    rw [henc, Form.ofWord, hrd, hrs1, rs2Field, hrs2]
    exact ⟨Row.accepts_of_mask _ hm hf (encR_mask ..), rfl⟩
  | jr mk | l mk | i mk =>
    obtain ⟨rd, rs1, imm, rfl⟩ := hi
    exact hr.reads_encode rs1 rd hw rfl

/-- Settles O42: the row of the instruction accepts its word, and reads the fields that the encoder put in. -/
theorem decodeOfEncode : Obligations.DecodeOfEncode := by
  intro i pc hw he
  obtain ⟨r, hr, hi⟩ := exists_row_of_instr i
  obtain ⟨hmem, -⟩ := rowOfOp_eq_some hr
  obtain ⟨ha, hi⟩ := (rows_coded r hmem).reads_encode hi hw he
  rw [decodeWord_of_accepts hmem ha, hi]

/-! ## One row for a word (rule R73) -/

/-- Settles O46: the patterns are pairwise disjoint, so the search for a row that accepts the word finds either of the
two. -/
theorem noWordMatchesTwoRows : Obligations.NoWordMatchesTwoRows := by
  refine ⟨rfl, by decide, fun w r q hr hq hrw hqw => ?_⟩
  have hfindr := find_of_pairwise rows_disjoint hr (beq_iff_eq.mpr hrw)
  have hfindq := find_of_pairwise rows_disjoint hq (beq_iff_eq.mpr hqw)
  rw [Option.some.inj (hfindr.symm.trans hfindq)]

/-- Settles O48: the model decodes the nine words. -/
theorem sampleWordsDecode : Obligations.SampleWordsDecode := by
  unfold Obligations.SampleWordsDecode
  decide

end Sys2Proof
end

section
/-! # The literals of rule R66

Each function of the model that reads digits, a magnitude or a literal takes exactly what the grammar derives. -/

namespace Sys2Proof

variable {base : Nat} {c : Char} {cs : List Char} {n : Nat}

/-! ## Digits -/

/-- The hexadecimal digits with letters in lower case, by value. -/
def lowerDigits : List Char := ['0', '1', '2', '3', '4', '5', '6', '7', '8', '9', 'a', 'b', 'c', 'd', 'e', 'f']

/-- The hexadecimal digits with letters in upper case, by value. -/
def upperDigits : List Char := ['0', '1', '2', '3', '4', '5', '6', '7', '8', '9', 'A', 'B', 'C', 'D', 'E', 'F']

/-- The value of a hexadecimal digit, before it is compared with a base. -/
def hexDigitValue (c : Char) : Option Nat :=
  if '0' ≤ c ∧ c ≤ '9' then some (c.toNat - 48)
  else if 'a' ≤ c ∧ c ≤ 'f' then some (c.toNat - 87)
  else if 'A' ≤ c ∧ c ≤ 'F' then some (c.toNat - 55)
  else none

theorem digitValue_eq (base : Nat) (c : Char) : digitValue base c = (hexDigitValue c).filter (· < base) := rfl

theorem map_lowerDigits : lowerDigits.map hexDigitValue = (List.range 16).map some := by decide

theorem map_upperDigits : upperDigits.map hexDigitValue = (List.range 16).map some := by decide

/-- A digit that stands in a list of digits by value has its index as its value. -/
theorem hexDigitValue_of_getElem? {l : List Char} (hl : l.map hexDigitValue = (List.range 16).map some) {d : Nat}
    (h : l[d]? = some c) : hexDigitValue c = some d := by
  have hd := congrArg (·[d]?) hl
  simp only [List.getElem?_map, h, Option.map_some] at hd
  obtain ⟨k, hk, hck⟩ := Option.map_eq_some_iff.mp hd.symm
  obtain ⟨hlt, rfl⟩ := List.getElem?_eq_some_iff.mp hk
  rw [← hck, List.getElem_range]

/-- The three runs of characters that are digits stand in the lists at their value. -/
theorem lower_decimals : ∀ k ∈ List.range' 48 10, lowerDigits[k - 48]? = some (Char.ofNat k) := by decide
theorem lower_letters : ∀ k ∈ List.range' 97 6, lowerDigits[k - 87]? = some (Char.ofNat k) := by decide
theorem upper_letters : ∀ k ∈ List.range' 65 6, upperDigits[k - 55]? = some (Char.ofNat k) := by decide

/-- A character of a run that stands in a list by value is found there. -/
theorem getElem?_of_run {l : List Char} {lo len off : Nat}
    (hrun : ∀ k ∈ List.range' lo len, l[k - off]? = some (Char.ofNat k)) (hlo : lo ≤ c.toNat)
    (hhi : c.toNat < lo + len) : l[c.toNat - off]? = some c := by
  rw [hrun _ (List.mem_range'_1.mpr ⟨hlo, hhi⟩), Char.ofNat_toNat]

theorem getElem?_of_hexDigitValue {d : Nat} (h : hexDigitValue c = some d) :
    lowerDigits[d]? = some c ∨ upperDigits[d]? = some c := by
  unfold hexDigitValue at h
  split at h
  · next hc =>
    cases h
    exact .inl (getElem?_of_run lower_decimals hc.1 (Nat.lt_succ_of_le hc.2))
  split at h
  · next hc =>
    cases h
    exact .inl (getElem?_of_run lower_letters hc.1 (Nat.lt_succ_of_le hc.2))
  split at h
  · next hc =>
    cases h
    exact .inr (getElem?_of_run upper_letters hc.1 (Nat.lt_succ_of_le hc.2))
  · cases h

theorem digitValue_eq_some_iff {d : Nat} : digitValue base c = some d ↔ Spec.Digit base c d := by
  rw [digitValue_eq, Option.filter_eq_some_iff, decide_eq_true_iff, and_comm]
  refine and_congr_right fun _ => ⟨getElem?_of_hexDigitValue, fun h => ?_⟩
  rcases h with h | h
  · exact hexDigitValue_of_getElem? map_lowerDigits h
  · exact hexDigitValue_of_getElem? map_upperDigits h

/-! ## Runs of digits -/

/-- The model reads digits from the left, the grammar from the right: the last digit of a run. -/
theorem digitsValue_concat (base acc : Nat) (cs : List Char) (c : Char) : digitsValue base acc (cs ++ [c]) =
    (digitsValue base acc cs).bind fun n => (digitValue base c).map fun d => n * base + d := by
  induction cs generalizing acc with
  | nil =>
    simp only [List.nil_append, digitsValue, Option.bind_some]
    cases digitValue base c <;> rfl
  | cons x xs ih =>
    simp only [List.cons_append, digitsValue]
    cases digitValue base x with
    | none => rfl
    | some d => exact ih _

theorem digitsValue_of_digits (h : Spec.Digits base cs n) : digitsValue base 0 cs = some n := by
  induction h with
  | one c d h =>
    simp only [digitsValue, digitValue_eq_some_iff.mpr h, Option.bind_some, Nat.zero_mul, Nat.zero_add]
  | more cs n c d _ h ih =>
    rw [digitsValue_concat, ih, digitValue_eq_some_iff.mpr h]
    rfl

theorem digits_of_digitsValue (hne : cs ≠ []) (h : digitsValue base 0 cs = some n) : Spec.Digits base cs n := by
  induction cs using List.reverseRecOn generalizing n with
  | nil => exact absurd rfl hne
  | append_singleton xs x ih =>
    rw [digitsValue_concat] at h
    obtain ⟨m, hm, hx⟩ := Option.bind_eq_some_iff.mp h
    obtain ⟨d, hd, rfl⟩ := Option.map_eq_some_iff.mp hx
    have hdigit := digitValue_eq_some_iff.mp hd
    cases xs with
    | nil =>
      cases hm
      rw [Nat.zero_mul, Nat.zero_add]
      exact .one x d hdigit
    | cons y ys => exact .more _ m x d (ih (List.cons_ne_nil y ys) hm) hdigit

theorem digitsValue_cons_iff : digitsValue base 0 (c :: cs) = some n ↔ Spec.Digits base (c :: cs) n :=
  ⟨digits_of_digitsValue (List.cons_ne_nil c cs), digitsValue_of_digits⟩

theorem ne_nil_of_digits (h : Spec.Digits base cs n) : cs ≠ [] := by
  cases h with
  | one c => exact List.cons_ne_nil c []
  | more cs n c => exact List.append_ne_nil_of_right_ne_nil cs (List.cons_ne_nil c [])

theorem digits1_iff : digits1 base cs = some n ↔ Spec.Digits base cs n := by
  cases cs with
  | nil => exact ⟨nofun, fun h => absurd rfl (ne_nil_of_digits h)⟩
  | cons c cs => exact digitsValue_cons_iff

/-! ## Magnitudes and literals -/

theorem magnitude_of_derivation (h : Spec.Magnitude cs n) : magnitude cs = some n := by
  cases h with
  | zero => rfl
  | hex p cs n hp h => rcases hp with rfl | rfl <;> exact digits1_iff.mpr h
  | bin p cs n hp h => rcases hp with rfl | rfl <;> exact digits1_iff.mpr h
  | oct p cs n hp h => rcases hp with rfl | rfl <;> exact digits1_iff.mpr h
  | dec c cs n hc h => exact (if_neg hc).trans (digitsValue_cons_iff.mpr h)

theorem derivation_of_magnitude (h : magnitude cs = some n) : Spec.Magnitude cs n := by
  unfold magnitude at h
  split at h
  · cases h
  split at h
  · next hc =>
    subst hc
    split at h
    · cases h
      exact .zero
    split at h
    · next hp => exact .hex _ _ n hp (digits1_iff.mp h)
    split at h
    · next hp => exact .bin _ _ n hp (digits1_iff.mp h)
    split at h
    · next hp => exact .oct _ _ n hp (digits1_iff.mp h)
    · cases h
  · next hc => exact .dec _ _ n hc (digitsValue_cons_iff.mp h)

/-- A magnitude does not begin with a sign. -/
theorem head_ne_sign (h : Spec.Magnitude (c :: cs) n) : c ≠ '-' ∧ c ≠ '+' := by
  have hm := magnitude_of_derivation h
  constructor
  · rintro rfl
    cases hm
  · rintro rfl
    cases hm

theorem literalValue_of_derivation {v : Int} (h : Spec.Literal cs v) : literalValue cs = some v := by
  cases h with
  | plain cs n h =>
    cases cs with
    | nil => cases h
    | cons c cs =>
      obtain ⟨hminus, hplus⟩ := head_ne_sign h
      simp only [literalValue, if_neg hminus, if_neg hplus, magnitude_of_derivation h, Option.map_some]
  | plus cs n h => exact congrArg (Option.map _) (magnitude_of_derivation h)
  | minus cs n h => exact congrArg (Option.map _) (magnitude_of_derivation h)

theorem derivation_of_literalValue {v : Int} (h : literalValue cs = some v) : Spec.Literal cs v := by
  unfold literalValue at h
  split at h
  · cases h
  split at h
  · next hc =>
    obtain ⟨n, hn, rfl⟩ := Option.map_eq_some_iff.mp h
    exact hc ▸ .minus _ n (derivation_of_magnitude hn)
  split at h
  · next hc =>
    obtain ⟨n, hn, rfl⟩ := Option.map_eq_some_iff.mp h
    exact hc ▸ .plus _ n (derivation_of_magnitude hn)
  · obtain ⟨n, hn, rfl⟩ := Option.map_eq_some_iff.mp h
    exact .plain _ n (derivation_of_magnitude hn)

theorem immSlot_takes (lo hi : Int) : Spec.SlotTakes (immSlot lo hi) lo hi := by
  intro cs
  unfold immSlot
  constructor
  · intro v hv hlo hhi
    simp only [literalValue_of_derivation hv, if_pos (And.intro hlo hhi)]
  · intro hnone
    cases hv : literalValue cs with
    | none => rfl
    | some v => exact if_neg fun hin => hnone ⟨v, derivation_of_literalValue hv, hin⟩

/-- Settles O51: the slot reads the value that the grammar gives, and compares it with its range. -/
theorem literalsFollowTheGrammar : Obligations.LiteralsFollowTheGrammar :=
  ⟨immSlot_takes _ _, immSlot_takes _ _, immSlot_takes _ _⟩

end Sys2Proof
end

section
/-! # The operands of a source record

The `imm(reg)` token, what a record that decodes is, and why a record fails for want of a label (rules R53, R67, R68,
R92 and R94). -/

namespace Sys2Proof

/-! ## The `imm(reg)` token (rule R68) -/

section
variable {c : Char} {xs ys : List Char}

theorem takeWhile_append_cons (h : c ∉ xs) : (xs ++ c :: ys).takeWhile (· ≠ c) = xs := by
  rw [List.takeWhile_append_of_pos fun x hx => decide_eq_true (ne_of_mem_of_not_mem hx h),
    List.takeWhile_cons_of_neg (by simp), List.append_nil]

theorem dropWhile_append_cons (h : c ∉ xs) : (xs ++ c :: ys).dropWhile (· ≠ c) = c :: ys := by
  rw [List.dropWhile_append_of_pos fun x hx => decide_eq_true (ne_of_mem_of_not_mem hx h),
    List.dropWhile_cons_of_neg (by simp)]

/-- What a search for a character leaves, if anything, begins with it and follows a text without it. -/
theorem append_cons_of_dropWhile (h : (xs.dropWhile (· ≠ c)) ≠ []) : ∃ as bs, xs = as ++ c :: bs ∧ c ∉ as := by
  refine List.eq_append_cons_of_mem ?_
  by_contra hc
  exact h (List.dropWhile_eq_nil_iff.mpr fun x hx => decide_eq_true (ne_of_mem_of_not_mem hx hc))

end

/-- The token is of the form `imm(reg)`, cut at its first parentheses (log entry 12). -/
def IsBaseToken (token : String) (lit name : List Char) : Prop :=
  token.toList = lit ++ '(' :: name ++ [')'] ∧ '(' ∉ lit ∧ ')' ∉ name

variable {token : String} {lit name : List Char}

theorem splitBase_of_isBaseToken (h : IsBaseToken token lit name) : splitBase token = some (lit, name) := by
  obtain ⟨htoken, hlit, hname⟩ := h
  rw [List.append_assoc, List.cons_append] at htoken
  simp only [splitBase, htoken, takeWhile_append_cons hlit, dropWhile_append_cons hlit, List.drop_succ_cons,
    List.drop_zero, takeWhile_append_cons hname, dropWhile_append_cons hname, if_true]

theorem isBaseToken_of_splitBase {p : List Char × List Char} (h : splitBase token = some p) :
    ∃ lit name, IsBaseToken token lit name := by
  unfold splitBase at h
  extract_lets lit rest name at h
  split at h
  · next hrest =>
    obtain ⟨lit, tail, htoken, hlit⟩ : ∃ as bs, token.toList = as ++ '(' :: bs ∧ '(' ∉ as := by
      refine append_cons_of_dropWhile fun hnil => ?_
      simp only [rest, hnil] at hrest
      cases hrest
    have htail : rest = tail := by
      simp only [rest, htoken, dropWhile_append_cons hlit, List.drop_succ_cons, List.drop_zero]
    rw [htail] at hrest
    obtain ⟨name, last, rfl, hname⟩ : ∃ as bs, tail = as ++ ')' :: bs ∧ ')' ∉ as := by
      refine append_cons_of_dropWhile fun hnil => ?_
      rw [hnil] at hrest
      cases hrest
    rw [dropWhile_append_cons hname] at hrest
    cases hrest
    exact ⟨lit, name, by rw [htoken, List.append_assoc, List.cons_append], hlit, hname⟩
  · cases h

theorem baseSlot_of_isBaseToken (h : IsBaseToken token lit name) :
    baseSlot token = do return (← imm12Slot lit, ← regSlot (String.ofList name)) := by
  unfold baseSlot
  rw [splitBase_of_isBaseToken h]

theorem baseSlot_of_not_isBaseToken (h : ¬ ∃ lit name, IsBaseToken token lit name) :
    baseSlot token = .error .immediateParseError := by
  unfold baseSlot
  cases hs : splitBase token with
  | none => rfl
  | some p => exact absurd (isBaseToken_of_splitBase hs) h

/-- Settles O52: the token is cut at its parentheses, and the literal is read before the name. -/
theorem offsetAndBaseTokens : Obligations.OffsetAndBaseTokens := by
  refine ⟨fun token lit name htoken hlit hname => ?_, fun token => baseSlot_of_not_isBaseToken⟩
  rw [baseSlot_of_isBaseToken ⟨htoken, hlit, hname⟩]
  refine ⟨fun v r hv hr => ?_, fun hv => ?_, fun v hv hr => ?_⟩
  · rw [hv, hr]; rfl
  · rw [hv]; rfl
  · rw [hv, hr]; rfl

/-! ## A record that decodes -/

section
variable {α β : Type} {x : Except FaultKind α} {f : α → Except FaultKind β} {b : β} {kind : FaultKind}

theorem ok_of_bind_ok (h : x >>= f = .ok b) : ∃ a, x = .ok a ∧ f a = .ok b := by
  cases x with
  | error e => cases h
  | ok a => exact ⟨a, rfl, h⟩

theorem error_of_bind_error (h : x >>= f = .error kind) : x = .error kind ∨ ∃ a, f a = .error kind := by
  cases x with
  | error e => cases h; exact .inl rfl
  | ok a => exact .inr ⟨a, h⟩

end

theorem immSlot_range {lo hi v : Int} {cs : List Char} (h : immSlot lo hi cs = .ok v) : lo ≤ v ∧ v ≤ hi := by
  unfold immSlot at h
  split at h
  · split at h
    · next hin => cases h; exact hin
    · cases h
  · cases h

theorem immOk_of_imm12Slot {v : Int} {cs : List Char} (h : imm12Slot cs = .ok v) : immOk v = true :=
  decide_eq_true (immSlot_range h)

theorem immOk_of_baseSlot {v : Int} {r : Reg} (h : baseSlot token = .ok (v, r)) : immOk v = true := by
  unfold baseSlot at h
  split at h
  · cases h
  · obtain ⟨imm, himm, h⟩ := ok_of_bind_ok h
    obtain ⟨rs1, -, h⟩ := ok_of_bind_ok h
    cases h
    exact immOk_of_imm12Slot himm

/-- The instruction is one of the row, within its ranges. -/
def Row.Admits (r : Row) (i : Instr) : Prop := i.wf = true ∧ i.mnemonic = r.mnemonic

theorem Row.Describes.admits {r : Row} {i : Instr} {wf : Bool} {reach : Word → Bool} {word : Word → Word}
    (h : r.Describes i wf reach word) (hwf : wf = true) : r.Admits i :=
  ⟨h.wf.trans hwf, h.mnemonic⟩

theorem Row.CodedI.admits {r : Row} {i : Instr} {mk : Reg → Reg → Int → Instr} {table : LabelTable} {a b : String}
    (hr : r.CodedI mk) (h : Form.ofArgs table (.l mk) [a, b] = .ok i) : r.Admits i := by
  obtain ⟨-, -, hd⟩ := hr
  obtain ⟨rd, -, h⟩ := ok_of_bind_ok h
  obtain ⟨⟨imm, rs1⟩, himm, h⟩ := ok_of_bind_ok h
  cases h
  exact (hd _ _ _).admits (immOk_of_baseSlot himm)

/-- The slots of a row take only operands in range (rules R66 and R92). The cases are those of `Form.ofArgs`, in
order. -/
theorem Row.Coded.admits {r : Row} {i : Instr} {table : LabelTable} {args : List String} (hr : r.Coded)
    (h : r.form.ofArgs table args = .ok i) : r.Admits i := by
  unfold Row.Coded at hr
  generalize r.form = form at hr h
  unfold Form.ofArgs at h
  split at h
  · obtain ⟨-, -, hd⟩ := hr
    obtain ⟨rd, -, h⟩ := ok_of_bind_ok h
    obtain ⟨imm, himm, h⟩ := ok_of_bind_ok h
    cases h
    exact (hd _ _).admits (upperOk_iff.mpr (Int.toNat_le.mpr (immSlot_range himm).2))
  · obtain ⟨-, -, hd⟩ := hr
    obtain ⟨rd, -, h⟩ := ok_of_bind_ok h
    obtain ⟨target, -, h⟩ := ok_of_bind_ok h
    cases h
    exact (hd _ _).admits rfl
  · exact hr.admits (table := table) h
  · obtain ⟨-, -, hd⟩ := hr
    obtain ⟨rs1, -, h⟩ := ok_of_bind_ok h
    obtain ⟨rs2, -, h⟩ := ok_of_bind_ok h
    obtain ⟨target, -, h⟩ := ok_of_bind_ok h
    cases h
    exact (hd _ _ _).admits rfl
  · exact hr.admits (table := table) h
  · obtain ⟨-, -, hd⟩ := hr
    obtain ⟨rs2, -, h⟩ := ok_of_bind_ok h
    obtain ⟨⟨imm, rs1⟩, himm, h⟩ := ok_of_bind_ok h
    cases h
    exact (hd _ _ _).admits (immOk_of_baseSlot himm)
  · obtain ⟨-, -, hd⟩ := hr
    obtain ⟨rd, -, h⟩ := ok_of_bind_ok h
    obtain ⟨rs1, -, h⟩ := ok_of_bind_ok h
    obtain ⟨imm, himm, h⟩ := ok_of_bind_ok h
    cases h
    exact (hd _ _ _).admits (immOk_of_imm12Slot himm)
  · obtain ⟨-, -, hd⟩ := hr
    obtain ⟨rd, -, h⟩ := ok_of_bind_ok h
    obtain ⟨rs1, -, h⟩ := ok_of_bind_ok h
    obtain ⟨shamt, hshamt, h⟩ := ok_of_bind_ok h
    cases h
    exact (hd _ _ _).admits (shamtOk_iff.mpr (Int.toNat_le.mpr (immSlot_range hshamt).2))
  · obtain ⟨-, -, hd⟩ := hr
    obtain ⟨rd, -, h⟩ := ok_of_bind_ok h
    obtain ⟨rs1, -, h⟩ := ok_of_bind_ok h
    obtain ⟨rs2, -, h⟩ := ok_of_bind_ok h
    cases h
    exact (hd _ _ _).admits rfl
  · cases h

/-- Settles O45: the record decodes by the row of its opcode string, whose slots take only operands in range. -/
theorem decodedRecordIsWellFormed : Obligations.DecodedRecordIsWellFormed := by
  intro table r i h
  unfold decodeRecord at h
  split at h
  · next row hrow =>
    obtain ⟨hmem, hop⟩ := rowOfOp_eq_some hrow
    obtain ⟨hwf, hmnemonic⟩ := (rows_coded row hmem).admits h
    exact ⟨hwf, hmnemonic.trans hop⟩
  · cases h

/-! ## A record that fails for want of a label (rule R67) -/

/-- The result is not the fault of a label that the table does not hold. -/
def Resolves {α : Type} (x : Except FaultKind α) : Prop := x ≠ .error .unresolvedLabel

theorem resolves_ok {α : Type} (a : α) : Resolves (.ok a) := nofun

theorem Resolves.bind {α β : Type} {x : Except FaultKind α} {f : α → Except FaultKind β} (hx : Resolves x)
    (hf : ∀ a, Resolves (f a)) : Resolves (x >>= f) := fun h =>
  (error_of_bind_error h).elim hx fun ⟨a, ha⟩ => hf a ha

theorem regSlot_resolves (name : String) : Resolves (regSlot name) := by
  unfold regSlot
  split <;> nofun

theorem immSlot_resolves (lo hi : Int) (cs : List Char) : Resolves (immSlot lo hi cs) := by
  unfold immSlot
  split
  · split <;> nofun
  · nofun

theorem baseSlot_resolves (token : String) : Resolves (baseSlot token) := by
  unfold baseSlot
  split
  · nofun
  · exact (immSlot_resolves _ _ _).bind fun imm => (regSlot_resolves _).bind fun rs1 => resolves_ok (imm, rs1)

theorem address?_of_targetSlot {table : LabelTable} {name : String}
    (h : targetSlot table name = .error .unresolvedLabel) : table.address? name = none := by
  unfold targetSlot at h
  split at h
  · cases h
  · next hnone => exact hnone

/-- Only a target slot can want a label, and then the record refers to it. The cases are those of `Form.ofArgs`: first
the two shapes with a target, `J` and `B`, then the others. -/
theorem labelRef_of_unresolved {table : LabelTable} {r : SourceRecord}
    (h : decodeRecord table r = .error .unresolvedLabel) :
    ∃ name, r.labelRef = some name ∧ table.address? name = none := by
  obtain ⟨op, args⟩ := r
  unfold decodeRecord at h
  cases hrow : rowOfOp op with
  | none => rw [hrow] at h; cases h
  | some row =>
    obtain ⟨mnemonic, pattern, mask, form⟩ := row
    simp only [hrow] at h
    unfold Form.ofArgs at h
    split at h
    case h_2 mk a b =>
      obtain h | ⟨rd, h⟩ := error_of_bind_error h
      · exact absurd h (regSlot_resolves a)
      obtain h | ⟨target, h⟩ := error_of_bind_error h
      · exact ⟨b, by simp only [SourceRecord.labelRef, hrow], address?_of_targetSlot h⟩
      · cases h
    case h_4 mk a b c =>
      obtain h | ⟨rs1, h⟩ := error_of_bind_error h
      · exact absurd h (regSlot_resolves a)
      obtain h | ⟨rs2, h⟩ := error_of_bind_error h
      · exact absurd h (regSlot_resolves b)
      obtain h | ⟨target, h⟩ := error_of_bind_error h
      · exact ⟨c, by simp only [SourceRecord.labelRef, hrow], address?_of_targetSlot h⟩
      · cases h
    case h_1 =>
      exact absurd h ((regSlot_resolves _).bind fun _ => (immSlot_resolves _ _ _).bind fun _ => resolves_ok _)
    case h_3 | h_5 | h_6 =>
      exact absurd h ((regSlot_resolves _).bind fun _ => (baseSlot_resolves _).bind fun _ => resolves_ok _)
    case h_7 | h_8 =>
      exact absurd h ((regSlot_resolves _).bind fun _ => (regSlot_resolves _).bind fun _ =>
        (immSlot_resolves _ _ _).bind fun _ => resolves_ok _)
    case h_9 =>
      exact absurd h ((regSlot_resolves _).bind fun _ => (regSlot_resolves _).bind fun _ =>
        (regSlot_resolves _).bind fun _ => resolves_ok _)
    case h_10 => cases h

end Sys2Proof
end

section
/-! # What the resolver makes of the lines, and where a load stops

A label line binds its name to the address `4*k`, where `k` is the number of the instruction lines before it; the load
stops at the first line the resolver does not take, and else at the first of the two checks that reports (rules R61 to
R63, R67, R182, R183, R185 and R189). -/

namespace Sys2Proof.Machine

variable {p q : Program} {line : List String} {lines : List (List String)} {name : String} {a : Word}

theorem addressOf_eq_w32 (k : Nat) : addressOf k = w32 (4 * k) := by
  unfold addressOf w32
  exact (BitVec.ofInt_natCast 32 (4 * k)).symm

theorem resolve_entries (h : resolve lines = .ok p) : p.entries = Spec.lineEntries lines :=
  resolveFrom_entries h

theorem labelLine_iff : Spec.LabelLine line name ↔ labelName line = some name :=
  labelName_eq_some_iff.symm

/-! ## The label table (rules R62 and R63) -/

theorem resolveLine_mem_labels_iff (h : resolveLine p line = .ok q) : (name, a) ∈ q.labels ↔
    (name, a) ∈ p.labels ∨ Spec.LabelLine line name ∧ a = addressOf p.entries.length := by
  obtain ⟨n, hl, -, -, rfl⟩ | ⟨hl, op, args, -, -, rfl⟩ := resolveLine_cases h
  · rw [labelLine_iff, hl, Option.some.injEq, eq_comm (a := n), List.mem_append, List.mem_singleton, Prod.mk.injEq]
  · exact ⟨.inl, fun h => h.resolve_right fun h => not_labelLine_of_labelName_none hl h.1⟩

/-- The label line, with the lines before it, among the first line and the rest. -/
theorem exists_split_cons {P : List (List String) → List String → Prop} :
    (∃ before l after, line :: lines = before ++ l :: after ∧ P before l) ↔
      P [] line ∨ ∃ before l after, lines = before ++ l :: after ∧ P (line :: before) l := by
  constructor
  · rintro ⟨before, l, after, heq, hP⟩
    cases before with
    | nil => cases heq; exact .inl hP
    | cons x before => cases heq; exact .inr ⟨before, l, after, rfl, hP⟩
  · rintro (hP | ⟨before, l, after, rfl, hP⟩)
    · exact ⟨[], line, lines, rfl, hP⟩
    · exact ⟨line :: before, l, after, rfl, hP⟩

/-- The table holds a label of each label line, at the number of instructions before the line. -/
theorem resolveFrom_mem_labels_iff (h : resolveFrom p lines = .ok q) : (name, a) ∈ q.labels ↔ (name, a) ∈ p.labels ∨
    ∃ before l after, lines = before ++ l :: after ∧
      Spec.LabelLine l name ∧ a = addressOf (p.entries.length + (Spec.lineEntries before).length) := by
  induction lines generalizing p with
  | nil => cases h; simp
  | cons line lines ih =>
    obtain ⟨r, hl, hrest⟩ := resolveFrom_cons_ok h
    rw [exists_split_cons, ih hrest, resolveLine_mem_labels_iff hl, or_assoc, resolveLine_entries hl]
    simp only [lineEntries_cons, List.length_append, Nat.add_assoc]
    rfl

theorem loaded_of_running {s : State} (h : loadLines lines = .next s) (hr : s.status = .running) :
    ∃ p, resolve lines = .ok p ∧ p.entries.length ≤ Config.maxProgramLength ∧ endCheck p = none ∧ s = State.boot p := by
  obtain ⟨e, rfl⟩ | hp := loadLines_cases h
  · cases hr
  · exact hp

theorem length_lineEntries_le (before : List (List String)) (after : List (List String)) :
    (Spec.lineEntries before).length ≤ (Spec.lineEntries (before ++ after)).length := by
  unfold Spec.lineEntries
  rw [List.filterMap_append, List.length_append]
  omega

/-- Settles O53: the resolver's records and labels are those of the lines, and the end check leaves no label at the
end. -/
theorem loadedProgramIsTheLines : Obligations.LoadedProgramIsTheLines := by
  intro lines s h hr
  obtain ⟨p, hp, hlen, hc, rfl⟩ := loaded_of_running h hr
  have hentries : p.entries = Spec.lineEntries lines := resolve_entries hp
  have hend := trailingLabel_eq_none_iff.mp (trailingLabel_of_endCheck hc)
  refine ⟨hentries, hlen, fun name a => ?_⟩
  have hlabels : (name, a) ∈ p.labels ↔ _ := resolveFrom_mem_labels_iff hp
  simp only [List.not_mem_nil, false_or, List.length_nil, Nat.zero_add] at hlabels
  constructor
  · intro hmem
    obtain ⟨before, line, after, hlines, hline, ha⟩ := hlabels.mp hmem
    refine ⟨before, line, after, hlines, hline, ha.trans (addressOf_eq_w32 _), ?_⟩
    have hle := length_lineEntries_le before (line :: after)
    rw [← hlines, ← hentries] at hle
    exact lt_of_le_of_ne hle fun heq => hend _ hmem (ha.trans (congrArg addressOf heq))
  · rintro ⟨before, line, after, hlines, hline, ha, -⟩
    exact hlabels.mpr ⟨before, line, after, hlines, hline, ha.trans (addressOf_eq_w32 _).symm⟩

/-! ## The errors of the resolver (rules R182, R183 and R189) -/

/-- What every line keeps, the lines keep. -/
theorem resolveFrom_preserves {P : Program → Prop} (hstep : ∀ p line q, P p → resolveLine p line = .ok q → P q)
    (hp : P p) (h : resolveFrom p lines = .ok q) : P q := by
  induction lines generalizing p with
  | nil => cases h; exact hp
  | cons line lines ih =>
    obtain ⟨r, hl, hrest⟩ := resolveFrom_cons_ok h
    exact ih (hstep p line r hp hl) hrest

/-- No label of the resolver's table has the empty name. -/
def NamesNonempty (p : Program) : Prop := ∀ row ∈ p.labels, row.1 ≠ ""

theorem resolveLine_namesNonempty (p : Program) (line : List String) (q : Program) (hp : NamesNonempty p)
    (h : resolveLine p line = .ok q) : NamesNonempty q := by
  obtain ⟨name, -, hne, -, rfl⟩ | ⟨-, op, args, -, -, rfl⟩ := resolveLine_cases h
  · intro row hrow
    rcases List.mem_append.mp hrow with hold | hnew
    · exact hp row hold
    · cases List.mem_singleton.mp hnew
      exact hne
  · exact hp

theorem resolve_namesNonempty (h : resolve lines = .ok p) : NamesNonempty p :=
  resolveFrom_preserves resolveLine_namesNonempty (fun _ hrow => absurd hrow List.not_mem_nil) h

theorem resolveLine_of_no_form (p : Program) (hl : ∀ name, ¬ Spec.LabelLine line name) (hi : ¬ Spec.InstrLine line) :
    resolveLine p line = .error ⟨.syntaxError, .line line⟩ := by
  have hnone : labelName line = none :=
    Option.eq_none_iff_forall_ne_some.mpr fun name h => hl name (labelLine_iff.mpr h)
  unfold resolveLine
  simp only [hnone]
  split
  · exact absurd (.inl rfl) hi
  · exact absurd (.inr rfl) hi
  · rfl

theorem resolveLine_of_empty_name (p : Program) (hl : Spec.LabelLine line "") :
    resolveLine p line = .error ⟨.syntaxError, .line line⟩ := by
  unfold resolveLine
  simp only [labelLine_iff.mp hl, if_true]

theorem resolveLine_of_declared (hl : Spec.LabelLine line name) (hne : name ≠ "") (hd : Declares p name) :
    resolveLine p line = .error ⟨.duplicateLabel, .label name⟩ := by
  unfold resolveLine
  simp only [labelLine_iff.mp hl, if_neg hne, address?_isSome_iff.mpr hd, if_true]

theorem endCheck_of_trailing {e : LoadError} (h : trailingLabel p = some e) : endCheck p = some e := by
  rw [endCheck, h, Option.some_or]

theorem endCheck_of_unresolved {e : LoadError} (ht : trailingLabel p = none)
    (hu : unresolvedFrom p.labels 0 p.entries = some e) : endCheck p = some e := by
  rw [endCheck, ht, hu, Option.none_or]

theorem loadLines_of_endCheck_some {e : LoadError} (hp : resolve lines = .ok p)
    (hlen : p.entries.length ≤ Config.maxProgramLength) (hc : endCheck p = some e) :
    loadLines lines = .next (State.failedLoad e) := by
  unfold loadLines
  simp only [hp, if_neg (Nat.not_lt.mpr hlen), hc]

theorem exists_trailingLabel (h : (name, addressOf p.entries.length) ∈ p.labels) :
    ∃ e, trailingLabel p = some e ∧ e.kind = .syntaxError := by
  cases ht : trailingLabel p with
  | none => exact absurd rfl (trailingLabel_eq_none_iff.mp ht _ h)
  | some e =>
    obtain ⟨row, -, rfl⟩ := Option.map_eq_some_iff.mp ht
    exact ⟨_, rfl, rfl⟩

/-- Settles O54: the resolver refuses each of these lines, and the first check at the end a label that stands there. -/
theorem resolutionErrorsStopTheLoad : Obligations.ResolutionErrorsStopTheLoad := by
  refine ⟨fun before line after p hp => ⟨fun hl hi => ?_, fun hl => ?_, fun name a hl hmem => ?_⟩,
    fun lines p name hp hlen hmem => ?_⟩
  · exact loadLines_of_resolveLine_error hp (resolveLine_of_no_form p hl hi)
  · exact loadLines_of_resolveLine_error hp (resolveLine_of_empty_name p hl)
  · have hne : name ≠ "" := resolve_namesNonempty hp _ hmem
    exact loadLines_of_resolveLine_error hp (resolveLine_of_declared hl hne ⟨a, hmem⟩)
  · rw [← addressOf_eq_w32] at hmem
    obtain ⟨e, ht, hkind⟩ := exists_trailingLabel hmem
    exact ⟨e, loadLines_of_endCheck_some hp hlen (endCheck_of_trailing ht), hkind⟩

/-! ## The label check (rules R67 and R185) -/

theorem labelRef_of_refersTo {r : SourceRecord} (h : Spec.refersTo r = some name) : r.labelRef = some name := by
  unfold Spec.refersTo at h
  split at h
  · split at h
    · next hop => cases h; cases hop; rfl
    · cases h
  · split at h
    · next hop =>
      cases h
      simp only [List.mem_cons, List.not_mem_nil, or_false] at hop
      rcases hop with rfl | rfl | rfl | rfl | rfl | rfl <;> rfl
    · cases h
  · cases h

theorem decodeWord_resolves (w pc : Word) : Resolves (decodeWord w pc) := by
  unfold decodeWord
  split <;> nofun

theorem unresolvedFrom_of_endCheck (h : endCheck p = none) : unresolvedFrom p.labels 0 p.entries = none :=
  (Option.or_eq_none_iff.mp h).2

/-- Where the label check has passed, no element of the program decodes to an undefined label. -/
theorem decodeEntry_resolves {table : LabelTable} {es : List Entry} (hc : unresolvedFrom table 0 es = none) (pc : Word)
    {e : Entry} (he : e ∈ es) : Resolves (decodeEntry table pc e) := by
  cases e with
  | word w => exact decodeWord_resolves w pc
  | record r =>
    intro h
    obtain ⟨name, hname, hnone⟩ := labelRef_of_unresolved h
    exact address?_eq_none_iff.mp hnone ((unresolvedFrom_eq_none_iff 0).mp hc r name he hname)

theorem failedLoad_atReset (e : LoadError) : Spec.AtReset (State.failedLoad e) :=
  ⟨fun _ => reset_readReg _, rfl, fun _ => rfl⟩

theorem resolve_declares_iff (h : resolve lines = .ok p) :
    Declares p name ↔ ∃ line ∈ lines, Spec.LabelLine line name := by
  rw [resolveFrom_declares_iff h]
  exact or_iff_right fun ⟨_, hmem⟩ => List.not_mem_nil hmem

theorem targetSlot_of_some {table : LabelTable} (h : table.address? name = some a) : targetSlot table name = .ok a := by
  unfold targetSlot
  rw [h]

theorem targetSlot_of_none {table : LabelTable} (h : table.address? name = none) :
    targetSlot table name = .error .unresolvedLabel := by
  unfold targetSlot
  rw [h]

/-- In a program that runs, a label that a record refers to is that of a line. -/
theorem exists_labelLine_of_running {s : State} {r : SourceRecord} (h : loadLines lines = .next s)
    (hr : s.status = .running) (hmem : Entry.record r ∈ Spec.lineEntries lines) (href : Spec.refersTo r = some name) :
    ∃ line ∈ lines, Spec.LabelLine line name := by
  obtain ⟨p, hp, -, hc, -⟩ := loaded_of_running h hr
  rw [← resolve_entries hp] at hmem
  have hdeclared := (unresolvedFrom_eq_none_iff 0).mp (unresolvedFrom_of_endCheck hc)
  exact (resolve_declares_iff hp).mp (hdeclared r name hmem (labelRef_of_refersTo href))

/-- The label check reports the first record whose label no line declares. -/
theorem unresolvedFrom_of_first_undeclared {before after : List Entry} {r : SourceRecord} (hp : resolve lines = .ok p)
    (hsplit : Spec.lineEntries lines = before ++ .record r :: after) (href : Spec.refersTo r = some name)
    (hnone : ∀ line ∈ lines, ¬ Spec.LabelLine line name)
    (hfirst : ∀ q n, Entry.record q ∈ before → Spec.refersTo q = some n → ∃ line ∈ lines, Spec.LabelLine line n) :
    unresolvedFrom p.labels 0 p.entries =
      some ⟨.unresolvedLabel, .reference name (w32 (4 * before.length))⟩ := by
  have hundeclared : p.labels.address? name = none := address?_eq_none_iff.mpr fun hd => by
    obtain ⟨line, hline, hlabel⟩ := (resolve_declares_iff hp).mp hd
    exact hnone line hline hlabel
  have hbefore (q : SourceRecord) (n : String) (hq : Entry.record q ∈ before) (hn : q.labelRef = some n) :
      Declares p n :=
    (resolve_declares_iff hp).mpr (hfirst q n hq (refersTo_of_labelRef hn))
  rw [resolve_entries hp, hsplit, unresolvedFrom_of_first hbefore (labelRef_of_refersTo href) hundeclared,
    Nat.zero_add, addressOf_eq_w32]

/-- Settles O55: the label check at the end of input reports the first undeclared label that a record refers to. -/
theorem undefinedLabelsNeverRun : Obligations.UndefinedLabelsNeverRun := by
  refine ⟨fun table name => ⟨fun _ => targetSlot_of_some, targetSlot_of_none⟩,
    fun lines s h => ⟨?_, fun hr e he => ?_⟩, ?_⟩
  · rintro ⟨r, name, hmem, href, hnone⟩ hr
    obtain ⟨line, hline, hlabel⟩ := exists_labelLine_of_running h hr hmem href
    exact hnone line hline hlabel
  · obtain ⟨p, -, -, hc, rfl⟩ := loaded_of_running h hr
    exact decodeEntry_resolves (unresolvedFrom_of_endCheck hc) _ he
  · intro lines p before after r name hp hlast hlen hsplit href hnone hfirst
    have hlen' : p.entries.length ≤ Config.maxProgramLength := resolve_entries hp ▸ hlen
    have hc := endCheck_of_unresolved (trailingLabel_of_getLast hp hlast hlen')
      (unresolvedFrom_of_first_undeclared hp hsplit href hnone hfirst)
    exact ⟨_, 0#32, loadLines_of_endCheck_some hp hlen' hc, rfl, failedLoad_atReset _⟩

end Sys2Proof.Machine
end

section
/-! # One step: fetch, decode, execute

A step from `Running` executes the decoded instruction, takes the fault of the decode, or halts (rules R90 and R91); no
instruction halts. -/

namespace Sys2Proof.Machine

variable {s t : State}

/-- Settles O6: the index `u(pc)/4` is the fetch of the model. -/
theorem stepRunsTheDecodedInstruction : Obligations.StepRunsTheDecodedInstruction :=
  fun s _ _ hr he hd => step_decoded hr ((fetchEntry_eq s).trans he) hd

theorem raiseFault_faults (s : State) (kind : FaultKind) : s.Faults (s.raiseFault kind) kind :=
  ⟨rfl, fun _ => rfl, rfl, fun _ => rfl, rfl, rfl⟩

/-- Settles O7: a fault of the decode is taken as any fault, and its report names the element fetched. -/
theorem stepTakesTheDecodeFault : Obligations.StepTakesTheDecodeFault := by
  intro s e kind hr he hd
  have hf : s.fetchEntry = some e := (fetchEntry_eq s).trans he
  obtain ⟨hstatus, hrest⟩ := raiseFault_faults s kind
  rw [offender_of_fetch s e hf] at hstatus
  exact ⟨_, step_decodeFault hr hf hd, hstatus, hrest⟩

/-- Settles O9, by the case of what is fetched. -/
theorem runningStepIsDefined : Obligations.RunningStepIsDefined :=
  fun _ hr => exists_step_of_running hr

/-! ## HALT (rule R91) -/

theorem fetchEntry_eq_none_iff (s : State) : s.fetchEntry = none ↔ s.program.length ≤ s.pc.toNat / 4 := by
  rw [fetchEntry_eq, List.getElem?_eq_none_iff]

theorem Effect.status_cases (he : Effect s t) : t.status = s.status ∨ ∃ kind, t = s.raiseFault kind := by
  cases he with
  | write rd v => exact .inl (by simp)
  | jump rd v target => exact .inl (by simp)
  | store ea n x => exact .inl (by simp)
  | fault kind => exact .inr ⟨kind, rfl⟩

/-- No instruction halts: a HALT is the step that fetches nothing. -/
theorem fetchEntry_of_step_halted (h : step s = .next t) (ht : t.status = .halted) : s.fetchEntry = none := by
  obtain ⟨hr, ⟨hf, -⟩ | ⟨e, -, ⟨kind, -, rfl⟩ | ⟨i, -, hx⟩⟩⟩ := step_cases h
  · exact hf
  · cases ht
  · obtain hs | ⟨kind, rfl⟩ := (effect_of_exec hx).status_cases
    · cases hr.symm.trans (hs.symm.trans ht)
    · cases ht

/-- Settles O8: the step that fetches nothing halts, and no other does. -/
theorem haltExactlyOutOfRange : Obligations.HaltExactlyOutOfRange := by
  refine fun s hr => ⟨fun hlen => ?_, fun t h ht => (fetchEntry_eq_none_iff s).mp (fetchEntry_of_step_halted h ht)⟩
  have hf := (fetchEntry_eq_none_iff s).mpr hlen
  exact ⟨_, step_halt hr hf, halt_status s, halt_readReg s, halt_pc s, fun _ => rfl, halt_program s, halt_labels s⟩

end Sys2Proof.Machine
end

section
/-! # The pc after a step

A shared operation moves the pc to one place where it takes no fault: a transfer to its target, the others to the
successor. The targets and conditions of rules R116 and R121 to R126 then give rule R96 for every instruction. -/

namespace Sys2Proof.Machine

variable {s : State} {a b : Word}

/-! ## The conditions and the target of a transfer, as the rules say them -/

theorem equalCond_iff : equalCond a b = true ↔ a = b := beq_iff_eq

theorem unequalCond_iff : unequalCond a b = true ↔ a ≠ b := bne_iff_ne

theorem lessSigned_iff : lessSigned a b = true ↔ a.toInt < b.toInt := BitVec.slt_iff_toInt_lt

theorem notLessSigned_iff : notLessSigned a b = true ↔ a.toInt ≥ b.toInt := by
  rw [notLessSigned, Bool.not_eq_true', ← Bool.not_eq_true, lessSigned_iff, not_lt]

theorem lessUnsigned_iff : lessUnsigned a b = true ↔ a.toNat < b.toNat := BitVec.ult_iff_toNat_lt

theorem notLessUnsigned_iff : notLessUnsigned a b = true ↔ a.toNat ≥ b.toNat := by
  rw [notLessUnsigned, Bool.not_eq_true', ← Bool.not_eq_true, lessUnsigned_iff, not_lt]

/-- A sum with a 32-bit immediate is the exact sum, narrowed (rules R116 and R131). -/
theorem add_imm32 (x : Word) (imm : Int) : x + imm32 imm = w32 (x.toNat + imm) := by
  rw [w32, BitVec.ofInt_add, BitVec.ofInt_natCast, BitVec.ofNat_toNat, BitVec.setWidth_eq]
  rfl

/-- Clearing bit 0 of a word is halving and doubling it. -/
theorem and_clear_bit_zero (x : Word) : x &&& 0xFFFFFFFE#32 = BitVec.ofNat 32 (x.toNat / 2 * 2) := by
  have hshift : x &&& 0xFFFFFFFE#32 = x >>> 1 <<< 1 := by
    rw [BitVec.shiftLeft_ushiftRight]
    rfl
  rw [hshift]
  apply BitVec.eq_of_toNat_eq
  simp [Nat.shiftLeft_eq, Nat.shiftRight_eq_div_pow]

theorem jalrTarget_eq (s : State) (rs1 : Reg) (imm : Int) : s.jalrTarget rs1 imm = Spec.jalrTarget s rs1 imm := by
  rw [State.jalrTarget, and_clear_bit_zero, add_imm32]
  rfl

/-! ## The pc after an instruction (rule R96) -/

/-- Where the outcome is a state whose status is `Running`, its pc is `p`. -/
def LeavesPc (p : Word) (x : Result) : Prop := ∀ t, x = .next t → t.status = .running → t.pc = p

theorem leavesPc_next (t : State) : LeavesPc t.pc (.next t) := fun _ ht _ => by cases ht; rfl

theorem leavesPc_raiseFault (p : Word) (s : State) (kind : FaultKind) : LeavesPc p (.next (s.raiseFault kind)) :=
  fun _ ht hr => by cases ht; cases hr

theorem leavesPc_writeResult (rd : Reg) (v : Word) (s : State) : LeavesPc s.nextPc (writeResult rd v s) := by
  rw [← writeReg_nextPc s rd v]
  exact leavesPc_next _

theorem leavesPc_transfer (target : Word) (linked s : State) : LeavesPc target (transfer target linked s) := by
  by_cases h : target.toNat % 4 = 0
  · rw [transfer_aligned h]
    exact leavesPc_next (linked.setPc target)
  · rw [transfer_misaligned h]
    exact leavesPc_raiseFault _ s _

theorem leavesPc_branch {cond : Word → Word → Bool} {rs1 rs2 : Reg} {p : Prop} [Decidable p]
    (hcond : cond (s.readReg rs1) (s.readReg rs2) = true ↔ p) (target : Word) :
    LeavesPc ((if p then some target else none).getD s.nextPc) (branch cond rs1 rs2 target s) := by
  split
  next hp =>
    rw [branch_taken (hcond.mpr hp)]
    exact leavesPc_transfer target s s
  next hp =>
    rw [branch_not_taken (Bool.eq_false_iff.mpr (mt hcond.mp hp))]
    exact leavesPc_next s.advance

theorem leavesPc_load (n : Nat) (ext : BitVec (8 * n) → Word) (rd rs1 : Reg) (imm : Int) (s : State) :
    LeavesPc s.nextPc (load n ext rd rs1 imm s) := by
  cases h : accessFault (s.effectiveAddress rs1 imm) n with
  | none => rw [load_ok h]; exact leavesPc_writeResult rd _ s
  | some kind => rw [load_fault h]; exact leavesPc_raiseFault _ s kind

theorem leavesPc_store (n : Nat) (rs2 rs1 : Reg) (imm : Int) (s : State) :
    LeavesPc s.nextPc (store n rs2 rs1 imm s) := by
  cases h : accessFault (s.effectiveAddress rs1 imm) n with
  | none => rw [store_ok h]; exact leavesPc_next _
  | some kind => rw [store_fault h]; exact leavesPc_raiseFault _ s kind

theorem leavesPc_exec (i : Instr) (s : State) : LeavesPc ((Spec.transferTarget s i).getD s.nextPc) (exec i s) := by
  cases i with
  | lui | addi | slti | sltiu | xori | ori | andi | slli | srli | srai => exact leavesPc_writeResult _ _ s
  | add | sub | sll | slt | sltu | xor | srl | sra | or | and => exact leavesPc_writeResult _ _ s
  | jal rd target => exact leavesPc_transfer target _ s
  | jalr rd rs1 imm =>
    rw [Spec.transferTarget, ← jalrTarget_eq]
    exact leavesPc_transfer (s.jalrTarget rs1 imm) _ s
  | beq => exact leavesPc_branch equalCond_iff _
  | bne => exact leavesPc_branch unequalCond_iff _
  | blt => exact leavesPc_branch lessSigned_iff _
  | bge => exact leavesPc_branch notLessSigned_iff _
  | bltu => exact leavesPc_branch lessUnsigned_iff _
  | bgeu => exact leavesPc_branch notLessUnsigned_iff _
  | lb | lh | lw | lbu | lhu => exact leavesPc_load _ _ _ _ _ s
  | sb | sh | sw => exact leavesPc_store _ _ _ _ s

/-- Settles O15: a step that leaves the status `Running` and fetches something is the decoded instruction. -/
theorem pcAfterAStep : Obligations.PcAfterAStep := by
  intro s t e i h ht he hd
  have hr : s.status = .running := (step_cases h).1
  rw [step_decoded hr ((fetchEntry_eq s).trans he) hd] at h
  rw [← nextPc_eq_w32]
  exact leavesPc_exec i s t h ht

end Sys2Proof.Machine
end

section
/-! # What a word can decode to

A word that a row accepts has the opcode of the row, and its funct3 and funct7 where the mask of the row tests them. So
a word of an opcode, funct3 or funct7 that no row asks for is unsupported (rules R75 and R93). -/

namespace Sys2Proof

variable {w : Word}

/-- The 36 rows are those of the mnemonics of rule R1. -/
theorem mnemonic_mem_of_row : ∀ r ∈ rows, r.mnemonic ∈ Spec.mnemonics := by decide

theorem decodeRecord_of_not_mem_mnemonics (table : LabelTable) {op : String} (args : List String)
    (h : op ∉ Spec.mnemonics) : decodeRecord table ⟨op, args⟩ = .error .unsupportedOperation := by
  have hrow : rowOfOp op = none := by
    cases hr : rowOfOp op with
    | none => rfl
    | some r =>
      obtain ⟨hmem, rfl⟩ := rowOfOp_eq_some hr
      exact absurd (mnemonic_mem_of_row r hmem) h
  simp only [decodeRecord, hrow]

theorem decodeWord_error {pc : Word} {kind : FaultKind} (h : decodeWord w pc = .error kind) :
    kind = .unsupportedOperation := by
  unfold decodeWord at h
  split at h <;> cases h
  rfl

/-! ## Words of the illegal classes -/

/-- The opcodes of rule R73. -/
def opcodes : List Nat := [0x37, 0x6F, 0x67, 0x63, 0x03, 0x23, 0x13, 0x33]

/-- Every row tests the whole opcode. -/
theorem rows_opcode : ∀ r ∈ rows, opField r.mask = BitVec.allOnes 7 ∧
    (opField r.pattern).toNat ∈ opcodes := by
  decide

theorem opcode_of_accepts {r : Row} (hr : r ∈ rows) (ha : r.accepts w = true) :
    (opField r.pattern).toNat = w.toNat % 128 := by
  rw [opField_of_accepts ha (rows_opcode r hr).1, opField_toNat]

theorem decodeWord_unsupported_of_opcode (pc : Word) (h : w.toNat % 128 ∉ opcodes) :
    decodeWord w pc = .error .unsupportedOperation := by
  refine decodeWord_unsupported (fun r hr => Bool.eq_false_iff.mpr fun ha => h ?_) pc
  rw [← opcode_of_accepts hr ha]
  exact (rows_opcode r hr).2

/-- A word is unsupported if every row of its opcode tests funct3, and asks for one that the word does not have. -/
theorem decodeWord_unsupported_of_funct3 {op : Nat} (Legal : Nat → Prop) (pc : Word)
    (hrows : ∀ r ∈ rows, (opField r.pattern).toNat = op →
      funct3Field r.mask = BitVec.allOnes 3 ∧ Legal (funct3Field r.pattern).toNat)
    (hop : w.toNat % 128 = op) (h3 : ¬ Legal (Spec.slice w 14 12)) :
    decodeWord w pc = .error .unsupportedOperation := by
  refine decodeWord_unsupported (fun r hr => Bool.eq_false_iff.mpr fun ha => h3 ?_) pc
  obtain ⟨hmask, hlegal⟩ := hrows r hr ((opcode_of_accepts hr ha).trans hop)
  rw [funct3Field_of_accepts ha hmask, funct3Field_toNat] at hlegal
  exact hlegal

/-- A word is unsupported if every row of its opcode and its funct3 tests funct7, and asks for one that the word does
not have. -/
theorem decodeWord_unsupported_of_funct7 {op : Nat} (Selects Legal : Nat → Prop) (pc : Word)
    (hrows : ∀ r ∈ rows, (opField r.pattern).toNat = op → funct3Field r.mask = BitVec.allOnes 3 ∧
      (Selects (funct3Field r.pattern).toNat →
        funct7Field r.mask = BitVec.allOnes 7 ∧ Legal (funct7Field r.pattern).toNat))
    (hop : w.toNat % 128 = op) (h3 : Selects (Spec.slice w 14 12)) (h7 : ¬ Legal (Spec.slice w 31 25)) :
    decodeWord w pc = .error .unsupportedOperation := by
  refine decodeWord_unsupported (fun r hr => Bool.eq_false_iff.mpr fun ha => h7 ?_) pc
  obtain ⟨hmask3, hselected⟩ := hrows r hr ((opcode_of_accepts hr ha).trans hop)
  rw [funct3Field_of_accepts ha hmask3, funct3Field_toNat] at hselected
  obtain ⟨hmask7, hlegal⟩ := hselected h3
  rw [funct7Field_of_accepts ha hmask7, funct7Field_toNat] at hlegal
  exact hlegal

/-- Settles O47: the two decoders by the search for a row, and the illegal classes by the field that no row asks for. -/
theorem unsupportedInstructions : Obligations.UnsupportedInstructions := by
  refine ⟨fun _ _ _ => rfl, fun table op args => decodeRecord_of_not_mem_mnemonics table args,
    fun w pc h => decodeWord_unsupported (fun r hr => beq_eq_false_iff_ne.mpr (h r hr)) pc,
    fun _ _ _ => decodeWord_error, fun w pc h => ?_⟩
  rcases h with hlow | hop | rfl | ⟨hop, h3⟩ | ⟨hop, h3⟩ | ⟨hop, h3⟩ | ⟨hop, h3⟩ | ⟨hop, h3, h7⟩ | ⟨hop, h3, h7⟩ |
    ⟨hop, h7⟩ | ⟨hop, h3, h7⟩
  · refine decodeWord_unsupported_of_opcode pc ?_
    simp only [opcodes, List.mem_cons, List.not_mem_nil, or_false]
    omega
  · refine decodeWord_unsupported_of_opcode pc ?_
    simp only [opcodes, List.mem_cons, List.not_mem_nil, or_false] at hop ⊢
    omega
  · exact decodeWord_unsupported_of_opcode pc (by decide)
  · exact decodeWord_unsupported_of_funct3 (· ∉ [2, 3]) pc (by decide) hop (not_not_intro h3)
  · exact decodeWord_unsupported_of_funct3 (· ∉ [3, 6, 7]) pc (by decide) hop (not_not_intro h3)
  · exact decodeWord_unsupported_of_funct3 (· ∉ [3, 4, 5, 6, 7]) pc (by decide) hop (not_not_intro h3)
  · exact decodeWord_unsupported_of_funct3 (· = 0) pc (by decide) hop h3
  · exact decodeWord_unsupported_of_funct7 (· = 1) (· = 0) pc (by decide) hop h3 h7
  · exact decodeWord_unsupported_of_funct7 (· = 5) (· ∈ [0, 32]) pc (by decide) hop h3 h7
  · exact decodeWord_unsupported_of_funct7 (fun _ => True) (· ∈ [0, 32]) pc (by decide) hop trivial h7
  · exact decodeWord_unsupported_of_funct7 (· ∉ [0, 5]) (· = 0) pc (by decide) hop h3 h7

end Sys2Proof
end

section
/-! # The upper immediate

A word decodes by its row, and so does a record, which must have as many operands as the shape of the row has slots. What
`lui` then writes is the shifted immediate (rules R73, R92 and R110). -/

namespace Sys2Proof

/-! ## The words of a row -/

theorem decodes_of_mem_rows {r : Row} {mk : Word → Word → Instr} (hr : r ∈ rows)
    (hmk : ∀ w pc, r.form.ofWord w pc = mk w pc) : Spec.Decodes r.mask r.pattern mk := fun w pc hw => by
  rw [decodeWord_of_accepts hr (beq_iff_eq.mpr hw), hmk]

theorem rdField_eq (w : Word) : rdField w = Spec.rd w :=
  Fin.ext ((rdField_val w).trans (Nat.mod_mod _ _).symm)

theorem upperField_eq_slice (w : Word) : upperField w = Spec.slice w 31 12 := upperField_eq w

/-! ## The records of a row -/

/-- The number of operand slots of a shape (rule R53). -/
def Form.arity : Form → Nat
  | .u _ | .j _ | .jr _ | .l _ | .s _ => 2
  | .b _ | .i _ | .sh _ | .r _ => 3

/-- The operand count is checked before any slot is read (rule R92). The cases are those of `Form.ofArgs`: nine shapes
with their operands, and the rest. -/
theorem Form.ofArgs_of_length_ne {form : Form} {args : List String} (h : args.length ≠ form.arity)
    (table : LabelTable) : form.ofArgs table args = .error .syntaxError := by
  unfold Form.ofArgs
  split
  case h_10 => rfl
  all_goals exact absurd rfl h

theorem decodeRecord_of_rowOfOp {op : String} {r : Row} (hr : rowOfOp op = some r) (table : LabelTable)
    (args : List String) : decodeRecord table ⟨op, args⟩ = r.form.ofArgs table args := by
  unfold decodeRecord
  rw [hr]

theorem record2_of_rowOfOp {op : String} {r : Row} {f : LabelTable → String → String → Except FaultKind Instr}
    (hr : rowOfOp op = some r) (harity : r.form.arity = 2)
    (hf : ∀ table a b, r.form.ofArgs table [a, b] = f table a b) : Spec.Record2 op f := fun table =>
  ⟨fun a b => (decodeRecord_of_rowOfOp hr table _).trans (hf table a b), fun args hargs =>
    (decodeRecord_of_rowOfOp hr table args).trans (Form.ofArgs_of_length_ne (harity ▸ hargs) table)⟩

end Sys2Proof

namespace Sys2Proof.Machine

/-! ## `lui` -/

theorem upperImm_eq_w32 (imm : Nat) : upperImm imm = w32 (imm * 4096) := by
  rw [upperImm, w32, ← BitVec.ofInt_natCast, Int.natCast_mul]
  rfl

/-- Settles O17: one row for the words and the records, whose instruction ends in the shifted immediate written. -/
theorem luiLoadsTheUpperImmediate : Obligations.LuiLoadsTheUpperImmediate := by
  have hrow : rowOfOp "lui" = some ⟨"lui", 0x37, 0x7F, .u .lui⟩ := rfl
  refine ⟨decodes_of_mem_rows (rowOfOp_eq_some hrow).1 fun w pc => ?_,
    record2_of_rowOfOp hrow rfl fun table a b => rfl, fun rd imm s => execWrites_of_writeResult ?_⟩
  · rw [Form.ofWord, rdField_eq, upperField_eq_slice]
  · rw [← upperImm_eq_w32]
    rfl

end Sys2Proof.Machine
end

section
/-! # The jumps

The immediates of rule R72 are the signed values of the bits that the decoder extends. A jump, or a branch whose
condition holds, ends in the shared transfer, which links or moves to an aligned target and faults at any other (rules
R115 to R118). -/

namespace Sys2Proof

variable (w : Word)

/-! ## The fields and immediates of a word, as the rules say them (rules R71 and R72) -/

theorem rs1Field_eq : rs1Field w = Spec.rs1 w :=
  Fin.ext ((rs1Field_val w).trans (Nat.mod_mod _ _).symm)

/-- The two's-complement value of a pattern is the signed value of the vector (rule R7). -/
theorem signed_toNat {n : Nat} (hn : 0 < n) (x : BitVec n) : Spec.signed n x.toNat = x.toInt := by
  have hpow : 2 ^ n = 2 * 2 ^ (n - 1) := (mul_pow_sub_one hn.ne' 2).symm
  rw [Spec.signed, BitVec.toInt_eq_toNat_cond]
  refine if_congr ?_ rfl (by push_cast; rfl)
  omega

theorem immI_toInt_eq_spec : (immI w).toInt = Spec.immI w := by
  rw [immI_toInt, ← signed_toNat (by decide), extract_toNat]
  rfl

theorem immJ_toInt_eq_spec : (immJ w).toInt = Spec.immJ w := by
  have hbits : (bitsJ w).toNat = Spec.slice w 31 31 * 1048576 + Spec.slice w 19 12 * 4096 +
      Spec.slice w 20 20 * 2048 + Spec.slice w 30 21 * 2 := by
    simp only [bitsJ_toNat, Spec.slice, Nat.reduceSub, Nat.reduceAdd, Nat.reducePow]
    omega
  calc (immJ w).toInt = (bitsJ w).toInt := BitVec.toInt_signExtend_of_le (by decide)
    _ = Spec.signed 21 (bitsJ w).toNat := (signed_toNat (by decide) _).symm
    _ = Spec.immJ w := by rw [hbits, Spec.immJ]

end Sys2Proof

namespace Sys2Proof.Machine

variable {s linked : State} {i : Instr} {rd : Reg} {target : Word}

/-- A sum of words is the exact sum of the first as an address and the second as an offset, narrowed (rule R74). -/
theorem add_eq_w32 (x y : Word) : x + y = w32 (x.toNat + y.toInt) := by
  rw [← add_imm32, imm32, w32, BitVec.ofInt_toInt]

/-! ## What a transfer does (rules R117 and R118) -/

theorem execMoves_of_setPc (h : exec i s = .next (s.setPc target)) : ExecMoves i s target :=
  ⟨_, h, fun _ => rfl, rfl, fun _ => rfl, rfl, rfl, rfl⟩

theorem execLinks_of_transfer (h : exec i s = transfer target (s.writeReg rd s.nextPc) s)
    (ht : target.toNat % 4 = 0) : ExecLinks i s rd target := by
  refine ⟨_, h.trans (transfer_aligned ht), ⟨?_, fun r hr => ?_⟩, rfl, fun a => ?_, ?_, ?_, ?_⟩
  · rw [setPc_readReg, readReg_writeReg_same, nextPc_eq_w32]
  · rw [setPc_readReg, readReg_writeReg_ne s rd r _ hr]
  · rw [setPc_mem, writeReg_mem]
  · rw [setPc_status, writeReg_status]
  · rw [setPc_program, writeReg_program]
  · rw [setPc_labels, writeReg_labels]

theorem execFaults_of_transfer (h : exec i s = transfer target linked s) (ht : target.toNat % 4 ≠ 0) :
    ExecFaults i s .addressMisaligned :=
  ⟨_, h.trans (transfer_misaligned ht), raiseFault_faults s _⟩

/-! ## The instructions that transfer (rules R118 and R120) -/

theorem branch_eq_elim {cond : Word → Word → Bool} {rs1 rs2 : Reg} {p : Prop} [Decidable p]
    (hcond : cond (s.readReg rs1) (s.readReg rs2) = true ↔ p) (target : Word) : branch cond rs1 rs2 target s =
      (if p then some target else none).elim (.next s.advance) fun t => transfer t s s := by
  split
  next hp => exact branch_taken (hcond.mpr hp)
  next hp => exact branch_not_taken (Bool.eq_false_iff.mpr (mt hcond.mp hp))

/-- A branch transfers to the target the rules give it, or advances where they give none. -/
theorem exec_of_isBranch (hb : Spec.isBranch i = true) (s : State) :
    exec i s = (Spec.transferTarget s i).elim (.next s.advance) fun t => transfer t s s := by
  cases i with
  | beq => exact branch_eq_elim equalCond_iff _
  | bne => exact branch_eq_elim unequalCond_iff _
  | blt => exact branch_eq_elim lessSigned_iff _
  | bge => exact branch_eq_elim notLessSigned_iff _
  | bltu => exact branch_eq_elim lessUnsigned_iff _
  | bgeu => exact branch_eq_elim notLessUnsigned_iff _
  | _ => cases hb

theorem exec_jalr (rd rs1 : Reg) (imm : Int) (s : State) : exec (.jalr rd rs1 imm) s =
    transfer (Spec.jalrTarget s rs1 imm) (s.writeReg rd s.nextPc) s := by
  rw [← jalrTarget_eq]
  rfl

theorem exec_of_transferTarget (h : Spec.transferTarget s i = some target) :
    ∃ linked, exec i s = transfer target linked s := by
  cases i with
  | jal => cases h; exact ⟨_, rfl⟩
  | jalr => cases h; exact ⟨_, exec_jalr _ _ _ s⟩
  | beq | bne | blt | bge | bltu | bgeu => exact ⟨s, by rw [exec_of_isBranch rfl, h, Option.elim_some]⟩
  | _ => cases h

/-- Settles O16: what has a target ends in the transfer to it, and a branch without one advances. -/
theorem misalignedTransferFaults : Obligations.MisalignedTransferFaults := by
  refine fun i s => ⟨fun target ht hmis => ?_, fun hb hnone => ?_⟩
  · obtain ⟨linked, hx⟩ := exec_of_transferTarget ht
    exact execFaults_of_transfer hx hmis
  · rw [← nextPc_eq_w32]
    refine execMoves_of_setPc ((exec_of_isBranch hb s).trans ?_)
    rw [hnone, Option.elim_none, State.advance]

/-! ## `jal` and `jalr` -/

/-- Settles O18: one row for the words and the records, and the transfer with the link value written. -/
theorem jalLinksAndJumps : Obligations.JalLinksAndJumps := by
  have hrow : rowOfOp "jal" = some ⟨"jal", 0x6F, 0x7F, .j .jal⟩ := rfl
  refine ⟨decodes_of_mem_rows (rowOfOp_eq_some hrow).1 fun w pc => ?_,
    record2_of_rowOfOp hrow rfl fun table a b => rfl,
    fun rd target s => ⟨execLinks_of_transfer rfl, execFaults_of_transfer rfl⟩⟩
  rw [Form.ofWord, rdField_eq, add_eq_w32, immJ_toInt_eq_spec]

/-- Settles O19: as for `jal`, with the target computed from the register before the link value is written. -/
theorem jalrLinksAndJumps : Obligations.JalrLinksAndJumps := by
  have hrow : rowOfOp "jalr" = some ⟨"jalr", 0x67, 0x707F, .jr .jalr⟩ := rfl
  refine ⟨decodes_of_mem_rows (rowOfOp_eq_some hrow).1 fun w pc => ?_,
    record2_of_rowOfOp hrow rfl fun table a b => rfl, fun rd rs1 imm s =>
      ⟨execLinks_of_transfer (exec_jalr rd rs1 imm s), execFaults_of_transfer (exec_jalr rd rs1 imm s)⟩⟩
  rw [Form.ofWord, rdField_eq, rs1Field_eq, immI_toInt_eq_spec, Spec.recordI]

end Sys2Proof.Machine
end

section
/-! # The branches

The six branches differ in their row and their condition only. One lemma on rows gives the decoding of their words and
records, one lemma on the shared operation gives their three outcomes, and each instruction brings the meaning of its
condition (rules R118 and R120 to R126). -/

namespace Sys2Proof

variable (w : Word)

/-! ## The word of a branch (rules R71, R72 and R74) -/

theorem rs2Field_eq : rs2Field w = Spec.rs2 w :=
  Fin.ext ((rs2Field_val w).trans (Nat.mod_mod _ _).symm)

theorem immB_toInt_eq_spec : (immB w).toInt = Spec.immB w := by
  have hbits : (bitsB w).toNat = Spec.slice w 31 31 * 4096 + Spec.slice w 7 7 * 2048 + Spec.slice w 30 25 * 32 +
      Spec.slice w 11 8 * 2 := by
    simp only [bitsB_toNat, Spec.slice, Nat.reduceSub, Nat.reduceAdd, Nat.reducePow]
    omega
  calc (immB w).toInt = (bitsB w).toInt := BitVec.toInt_signExtend_of_le (by decide)
    _ = Spec.signed 13 (bitsB w).toNat := (signed_toNat (by decide) _).symm
    _ = Spec.immB w := by rw [hbits, Spec.immB]

theorem ofWord_b (pc : Word) (mk : Reg → Reg → Word → Instr) : (Form.b mk).ofWord w pc = Spec.recordB mk w pc := by
  rw [Form.ofWord, rs1Field_eq, rs2Field_eq, Machine.add_eq_w32, immB_toInt_eq_spec, Spec.recordB]

/-! ## The record of a branch (rules R53 and R92) -/

theorem record3_of_rowOfOp {op : String} {r : Row}
    {f : LabelTable → String → String → String → Except FaultKind Instr} (hr : rowOfOp op = some r)
    (harity : r.form.arity = 3) (hf : ∀ table a b c, r.form.ofArgs table [a, b, c] = f table a b c) :
    Spec.Record3 op f := fun table =>
  ⟨fun a b c => (decodeRecord_of_rowOfOp hr table _).trans (hf table a b c), fun args hargs =>
    (decodeRecord_of_rowOfOp hr table args).trans (Form.ofArgs_of_length_ne (harity ▸ hargs) table)⟩

end Sys2Proof

namespace Sys2Proof.Machine

variable {mk : Reg → Reg → Word → Instr} {c : Word → Word → Bool} {cond : Word → Word → Prop}

/-! ## What a branch does (rules R118 and R120) -/

theorem branches_of_exec (hexec : ∀ rs1 rs2 target s, exec (mk rs1 rs2 target) s = branch c rs1 rs2 target s)
    (hc : ∀ a b, c a b = true ↔ cond a b) : Spec.Branches mk cond := by
  intro rs1 rs2 target s
  have htaken (h : cond (s.readReg rs1) (s.readReg rs2)) : exec (mk rs1 rs2 target) s = transfer target s s :=
    (hexec ..).trans (branch_taken ((hc ..).mpr h))
  refine ⟨fun h haligned => ?_, fun h => execFaults_of_transfer (htaken h), fun h => ?_⟩
  · exact execMoves_of_setPc ((htaken h).trans (transfer_aligned haligned))
  · rw [← nextPc_eq_w32]
    exact execMoves_of_setPc ((hexec ..).trans (branch_not_taken (Bool.eq_false_iff.mpr (mt (hc ..).mp h))))

/-- A row of shape `B` and the condition its instruction tests give the whole of its rule. -/
theorem branch_rule {op : String} {pattern : Word} (hrow : rowOfOp op = some ⟨op, pattern, 0x707F, .b mk⟩)
    (hexec : ∀ rs1 rs2 target s, exec (mk rs1 rs2 target) s = branch c rs1 rs2 target s)
    (hc : ∀ a b, c a b = true ↔ cond a b) :
    Spec.Decodes 0x707F pattern (Spec.recordB mk) ∧ Spec.RecordB op mk ∧ Spec.Branches mk cond :=
  ⟨decodes_of_mem_rows (rowOfOp_eq_some hrow).1 fun w pc => ofWord_b w pc mk,
    record3_of_rowOfOp hrow rfl fun _ _ _ _ => rfl, branches_of_exec hexec hc⟩

/-! ## The six branches -/

/-- Settles O20: the rule of a branch for each row, with equality of the patterns and its negation. -/
theorem beqBneCompareForEquality : Obligations.BeqBneCompareForEquality :=
  ⟨branch_rule rfl (fun _ _ _ _ => rfl) fun _ _ => equalCond_iff,
    branch_rule rfl (fun _ _ _ _ => rfl) fun _ _ => unequalCond_iff⟩

/-- Settles O21: as for equality, with the order of the signed values. -/
theorem bltBgeCompareSigned : Obligations.BltBgeCompareSigned :=
  ⟨branch_rule rfl (fun _ _ _ _ => rfl) fun _ _ => lessSigned_iff,
    branch_rule rfl (fun _ _ _ _ => rfl) fun _ _ => notLessSigned_iff⟩

/-- Settles O22: as for equality, with the order of the unsigned values. -/
theorem bltuBgeuCompareUnsigned : Obligations.BltuBgeuCompareUnsigned :=
  ⟨branch_rule rfl (fun _ _ _ _ => rfl) fun _ _ => lessUnsigned_iff,
    branch_rule rfl (fun _ _ _ _ => rfl) fun _ _ => notLessUnsigned_iff⟩

end Sys2Proof.Machine
end

section
/-! # The ALU with an immediate

The nine instructions end in one result written (rule R130). The words and records of shapes `I` and `SH` decode by the
row, as those of the branches do, and each instruction brings the value it writes (rules R131 to R139). -/

namespace Sys2Proof

variable (w pc : Word)

/-! ## The words of shapes `I` and `SH` (rules R71, R72 and R74) -/

theorem ofWord_i (mk : Reg → Reg → Int → Instr) : (Form.i mk).ofWord w pc = Spec.recordI mk w pc := by
  rw [Form.ofWord, rdField_eq, rs1Field_eq, immI_toInt_eq_spec, Spec.recordI]

theorem shamtField_eq_slice : shamtField w = Spec.slice w 24 20 := shamtField_eq w

theorem ofWord_sh (mk : Reg → Reg → Nat → Instr) : (Form.sh mk).ofWord w pc = Spec.recordSH mk w pc := by
  rw [Form.ofWord, rdField_eq, rs1Field_eq, shamtField_eq_slice, Spec.recordSH]

end Sys2Proof

namespace Sys2Proof.Machine

/-! ## The values written, as the rules say them (rules R132, R133 and R137 to R139) -/

theorem boolWord_eq_ite {c : Bool} {p : Prop} [Decidable p] (hc : c = true ↔ p) :
    boolWord c = if p then 1#32 else 0#32 := if_congr hc rfl rfl

theorem lessSignedImm_iff {a : Word} {imm : Int} : lessSignedImm a imm = true ↔ a.toInt < imm := decide_eq_true_iff

theorem shiftLeft_eq_w32 (x : Word) (k : Nat) : x <<< k = w32 (x.toNat * 2 ^ k) := by
  have hcast : (x.toNat : Int) * 2 ^ k = (x.toNat <<< k : Nat) := by
    rw [Nat.shiftLeft_eq]
    push_cast
    rfl
  rw [hcast, w32, BitVec.ofInt_natCast]
  rfl

theorem ushiftRight_eq_w32 (x : Word) (k : Nat) : x >>> k = w32 (x.toNat / 2 ^ k) := by
  have hcast : (x.toNat : Int) / 2 ^ k = (x >>> k).toNat := by
    rw [BitVec.toNat_ushiftRight, Nat.shiftRight_eq_div_pow]
    push_cast
    rfl
  rw [hcast, w32, BitVec.ofInt_natCast, BitVec.ofNat_toNat, BitVec.setWidth_eq]

/-- An arithmetic shift is the division of the signed value rounded toward minus infinity (rules R139 and R153). -/
theorem sshiftRight_eq_w32 (x : Word) (k : Nat) : x.sshiftRight k = w32 (x.toInt / 2 ^ k) := by
  rw [BitVec.sshiftRight, Int.shiftRight_eq_div_pow]
  push_cast
  rfl

/-- On its range the amount of a shift is the immediate itself (rule R137). -/
theorem shiftAmountImm_of_le {shamt : Nat} (h : shamt ≤ 31) : shiftAmountImm shamt = shamt :=
  Nat.mod_eq_of_lt (Nat.lt_succ_of_le h)

/-! ## A row of each shape and its instruction (rules R73, R92 and R130) -/

/-- A row of shape `I` and the value its instruction writes give the whole of its rule. -/
theorem imm_rule {op : String} {pattern : Word} {mk : Reg → Reg → Int → Instr} {f : Word → Int → Word}
    (hrow : rowOfOp op = some ⟨op, pattern, 0x707F, .i mk⟩)
    (hexec : ∀ rd rs1 imm s, exec (mk rd rs1 imm) s = writeResult rd (f (s.readReg rs1) imm) s) :
    Spec.Decodes 0x707F pattern (Spec.recordI mk) ∧ Spec.RecordI op mk ∧ Spec.WritesImm mk f :=
  ⟨decodes_of_mem_rows (rowOfOp_eq_some hrow).1 fun w pc => ofWord_i w pc mk,
    record3_of_rowOfOp hrow rfl fun _ _ _ _ => rfl,
    fun rd rs1 imm s => execWrites_of_writeResult (hexec rd rs1 imm s)⟩

/-- A row of shape `SH` and the value its instruction writes give the whole of its rule. -/
theorem shift_rule {op : String} {pattern : Word} {mk : Reg → Reg → Nat → Instr} {f : Word → Nat → Word}
    (hrow : rowOfOp op = some ⟨op, pattern, 0xFE00707F, .sh mk⟩)
    (hexec : ∀ rd rs1 shamt s,
      exec (mk rd rs1 shamt) s = writeResult rd (f (s.readReg rs1) (shiftAmountImm shamt)) s) :
    Spec.Decodes 0xFE00707F pattern (Spec.recordSH mk) ∧ Spec.RecordSH op mk ∧ Spec.WritesShift mk f := by
  refine ⟨decodes_of_mem_rows (rowOfOp_eq_some hrow).1 fun w pc => ofWord_sh w pc mk,
    record3_of_rowOfOp hrow rfl fun _ _ _ _ => rfl, fun rd rs1 shamt s h => execWrites_of_writeResult ?_⟩
  rw [hexec, shiftAmountImm_of_le h]

/-! ## The nine instructions -/

/-- Settles O23: the sum of the words is the exact sum, narrowed. -/
theorem addiAddsModulo : Obligations.AddiAddsModulo :=
  imm_rule rfl fun rd _ imm s => congrArg (writeResult rd · s) (add_imm32 _ imm)

/-- Settles O24: the signed order against the immediate itself, and the unsigned order against its 32 bits. -/
theorem sltiSltiuCompare : Obligations.SltiSltiuCompare :=
  ⟨imm_rule rfl fun rd _ _ s => congrArg (writeResult rd · s) (boolWord_eq_ite lessSignedImm_iff),
    imm_rule rfl fun rd _ _ s => congrArg (writeResult rd · s) (boolWord_eq_ite lessUnsigned_iff)⟩

/-- Settles O25: the model's bitwise operation on `imm32` is the rule's own, so each rule follows from its row. -/
theorem logicalImmediates : Obligations.LogicalImmediates :=
  ⟨imm_rule rfl fun _ _ _ _ => rfl, imm_rule rfl fun _ _ _ _ => rfl, imm_rule rfl fun _ _ _ _ => rfl⟩

/-- Settles O26: each shift is a product or a quotient by the power of two, unsigned or signed. -/
theorem shiftImmediates : Obligations.ShiftImmediates :=
  ⟨shift_rule rfl fun rd _ _ s => congrArg (writeResult rd · s) (shiftLeft_eq_w32 _ _),
    shift_rule rfl fun rd _ _ s => congrArg (writeResult rd · s) (ushiftRight_eq_w32 _ _),
    shift_rule rfl fun rd _ _ s => congrArg (writeResult rd · s) (sshiftRight_eq_w32 _ _)⟩

end Sys2Proof.Machine
end

section
/-! # The ALU with two registers

The ten instructions share one operation, which writes a function of the two sources (rule R145). A row of shape `R`
decodes their words and records as the other rows do, and each instruction brings the agreement of the model's function
with the rule's own (rules R146 to R155). -/

namespace Sys2Proof

/-! ## The word of shape `R` (rules R71 and R74) -/

theorem ofWord_r (w pc : Word) (mk : Reg → Reg → Reg → Instr) : (Form.r mk).ofWord w pc = Spec.recordR mk w pc := by
  rw [Form.ofWord, rdField_eq, rs1Field_eq, rs2Field_eq, Spec.recordR]

end Sys2Proof

namespace Sys2Proof.Machine

/-! ## The values written, as the rules say them (rules R146 to R148) -/

theorem w32_toNat (x : Word) : w32 x.toNat = x := by
  rw [w32, BitVec.ofInt_natCast, BitVec.ofNat_toNat, BitVec.setWidth_eq]

theorem add_eq_w32_toNat (x y : Word) : x + y = w32 (x.toNat + y.toNat) := by
  rw [← add_imm32, imm32, w32_toNat]

/-- The narrowed difference is the word that gives back `x` when `y` is added (rule R147). -/
theorem sub_eq_w32_toNat (x y : Word) : x - y = w32 ((x.toNat : Int) - y.toNat) := by
  refine sub_eq_of_eq_add ?_
  calc x = w32 ((x.toNat : Int) - y.toNat + y.toNat) := by rw [Int.sub_add_cancel, w32_toNat]
    _ = w32 ((x.toNat : Int) - y.toNat) + w32 y.toNat := BitVec.ofInt_add ..
    _ = w32 ((x.toNat : Int) - y.toNat) + y := by rw [w32_toNat]

/-- The low 5 bits of the second source are its value modulo 32 (rule R148). -/
theorem shiftAmount_eq_mod (b : Word) : shiftAmount b = b.toNat % 32 :=
  (extract_toNat b 0 5).trans (by rw [pow_zero, Nat.div_one]; rfl)

/-! ## A row of shape `R` and its instruction (rules R73, R92 and R145) -/

/-- A row of shape `R` and a model function `g` that agrees with the rule's `f` give the whole of the rule. -/
theorem reg_rule {op : String} {pattern : Word} {mk : Reg → Reg → Reg → Instr} {g f : Word → Word → Word}
    (hrow : rowOfOp op = some ⟨op, pattern, 0xFE00707F, .r mk⟩)
    (hexec : ∀ rd rs1 rs2 s, exec (mk rd rs1 rs2) s = aluReg g rd rs1 rs2 s) (hg : ∀ a b, g a b = f a b) :
    Spec.Decodes 0xFE00707F pattern (Spec.recordR mk) ∧ Spec.RecordR op mk ∧ Spec.WritesReg mk f := by
  refine ⟨decodes_of_mem_rows (rowOfOp_eq_some hrow).1 fun w pc => ofWord_r w pc mk,
    record3_of_rowOfOp hrow rfl fun _ _ _ _ => rfl, fun rd rs1 rs2 s => execWrites_of_writeResult ?_⟩
  rw [hexec, aluReg, hg]

/-! ## The ten instructions -/

/-- Settles O27: the sum and the difference of the words are the exact ones, narrowed. -/
theorem addSubWrap : Obligations.AddSubWrap :=
  ⟨reg_rule rfl (fun _ _ _ _ => rfl) add_eq_w32_toNat, reg_rule rfl (fun _ _ _ _ => rfl) sub_eq_w32_toNat⟩

/-- Settles O28: each shift is a product or a quotient by the power of two, by an amount that is taken modulo 32. -/
theorem shiftsByRegister : Obligations.ShiftsByRegister :=
  ⟨reg_rule rfl (fun _ _ _ _ => rfl) fun a b => shiftAmount_eq_mod b ▸ shiftLeft_eq_w32 a (shiftAmount b),
    reg_rule rfl (fun _ _ _ _ => rfl) fun a b => shiftAmount_eq_mod b ▸ ushiftRight_eq_w32 a (shiftAmount b),
    reg_rule rfl (fun _ _ _ _ => rfl) fun a b => shiftAmount_eq_mod b ▸ sshiftRight_eq_w32 a (shiftAmount b)⟩

/-- Settles O29: the signed and the unsigned order, as 1 or 0. -/
theorem sltSltuCompare : Obligations.SltSltuCompare :=
  ⟨reg_rule rfl (fun _ _ _ _ => rfl) fun _ _ => boolWord_eq_ite lessSigned_iff,
    reg_rule rfl (fun _ _ _ _ => rfl) fun _ _ => boolWord_eq_ite lessUnsigned_iff⟩

/-- Settles O30: the model's bitwise operations are the rules' own, so each rule follows from its row. -/
theorem logicalRegisters : Obligations.LogicalRegisters :=
  ⟨reg_rule rfl (fun _ _ _ _ => rfl) fun _ _ => rfl, reg_rule rfl (fun _ _ _ _ => rfl) fun _ _ => rfl,
    reg_rule rfl (fun _ _ _ _ => rfl) fun _ _ => rfl⟩

end Sys2Proof.Machine
end

section
/-! # The loads

The five loads share one operation (rule R160), which faults at an address that the checks refuse and else writes what
the instruction makes of the bytes. A row of shape `L` decodes their words and records as the other rows do, and each
instruction brings the value of its bytes, as an integer, with its extension (rules R161 to R165). -/

namespace Sys2Proof

/-! ## The word of shape `L` (rules R71, R72 and R74) -/

theorem ofWord_l (w pc : Word) (mk : Reg → Reg → Int → Instr) : (Form.l mk).ofWord w pc = Spec.recordI mk w pc := by
  rw [Form.ofWord, rdField_eq, rs1Field_eq, immI_toInt_eq_spec, Spec.recordI]

end Sys2Proof

namespace Sys2Proof.Machine

/-! ## The values loaded, as the rules say them (rules R161 to R165) -/

theorem signExtend_eq_w32 {k : Nat} (hk : 0 < k) (x : BitVec k) : x.signExtend 32 = w32 (Spec.signed k x.toNat) := by
  rw [signed_toNat hk, w32, BitVec.signExtend]

theorem setWidth_eq_w32 {k : Nat} (x : BitVec k) : x.setWidth 32 = w32 x.toNat := by
  rw [w32, BitVec.ofInt_natCast, BitVec.ofNat_toNat]

theorem readLE_one_toNat (m : Memory) (a : Nat) : (m.readLE a 1).toNat = (m.readByte a).toNat :=
  congrArg BitVec.toNat (readLE_one m a)

/-- The byte at the address is the least significant one (rule R32). -/
theorem readLE_succ_toNat (m : Memory) (a n : Nat) :
    (m.readLE a (n + 1)).toNat = (m.readByte a).toNat + 256 * (m.readLE (a + 1) n).toNat := by
  refine (append_toNat (m.readLE (a + 1) n) (m.readByte a)).trans ?_
  omega

theorem readLE_two_toNat (m : Memory) (a : Nat) :
    (m.readLE a 2).toNat = (m.readByte a).toNat + 256 * (m.readByte (a + 1)).toNat := by
  rw [readLE_succ_toNat, readLE_one_toNat]

theorem readLE_four_toNat (m : Memory) (a : Nat) : (m.readLE a 4).toNat = (m.readByte a).toNat +
    256 * (m.readByte (a + 1)).toNat + 65536 * (m.readByte (a + 2)).toNat + 16777216 * (m.readByte (a + 3)).toNat := by
  rw [readLE_succ_toNat, readLE_succ_toNat, readLE_two_toNat]
  ring

/-! ## What a load does (rules R33, R34 and R160) -/

section

variable {n : Nat} {ext : BitVec (8 * n) → Word}

theorem execFaults_of_load {i : Instr} {s : State} {rd rs1 : Reg} {imm : Int} {kind : FaultKind}
    (h : exec i s = load n ext rd rs1 imm s) (hf : accessFault (Spec.ea s rs1 imm) n = some kind) :
    ExecFaults i s kind :=
  ⟨_, h.trans (load_fault hf), raiseFault_faults s kind⟩

variable {op : String} {pattern : Word} {mk : Reg → Reg → Int → Instr} {value : (Nat → Nat) → Nat → Int}
  (hrow : rowOfOp op = some ⟨op, pattern, 0x707F, .l mk⟩)
  (hexec : ∀ rd rs1 imm s, exec (mk rd rs1 imm) s = load n ext rd rs1 imm s)
  (hvalue : ∀ m a, ext (Memory.readLE m a n) = w32 (value (fun b => (m.readByte b).toNat) a))

include hexec

theorem needsAlignment_of_load : Spec.NeedsAlignment mk n := fun rd rs1 imm s hin hmis =>
  execFaults_of_load (hexec rd rs1 imm s) (accessFault_of_inBounds_misaligned hin hmis)

include hvalue

/-- The value of the bytes is written after an access that the checks admit (rule R160). -/
theorem loads_of_exec : Spec.Loads mk n value := by
  refine fun rd rs1 imm s => ⟨fun hin hal => ?_, fun hout => ?_⟩
  · rw [← hvalue]
    exact execWrites_of_writeResult ((hexec rd rs1 imm s).trans (load_ok (accessFault_of_inBounds hin hal)))
  · exact execFaults_of_load (hexec rd rs1 imm s) (accessFault_of_not_inBounds hout n)

include hrow

/-- A row of shape `L` and the value its instruction loads give the whole of its rule. -/
theorem load_rule : Spec.Decodes 0x707F pattern (Spec.recordI mk) ∧ Spec.RecordBase op mk ∧
    Spec.NeedsAlignment mk n ∧ Spec.Loads mk n value :=
  ⟨decodes_of_mem_rows (rowOfOp_eq_some hrow).1 fun w pc => ofWord_l w pc mk,
    record2_of_rowOfOp hrow rfl fun _ _ _ => rfl, needsAlignment_of_load hexec, loads_of_exec hexec hvalue⟩

/-- The rule of a load whose width asks for no alignment (rules R161 and R164). -/
theorem byte_load_rule : Spec.Decodes 0x707F pattern (Spec.recordI mk) ∧ Spec.RecordBase op mk ∧
    Spec.Loads mk n value := by
  obtain ⟨hword, hrecord, -, hloads⟩ := load_rule hrow hexec hvalue
  exact ⟨hword, hrecord, hloads⟩

end

end Sys2Proof.Machine

/-! ## The five instructions

The model's `loadWords` is the host's load of a program of words, so these three theorems stand in a namespace of
their own. -/

namespace Sys2Proof.Machine.Loads

/-- Settles O31: the byte at the address, signed or unsigned. -/
theorem loadBytes : Obligations.LoadBytes :=
  ⟨byte_load_rule rfl (fun _ _ _ _ => rfl) fun m a => by rw [signExtend_eq_w32 (by decide), readLE_one_toNat],
    byte_load_rule rfl (fun _ _ _ _ => rfl) fun m a => by rw [setWidth_eq_w32, readLE_one_toNat]⟩

/-- Settles O32: the two bytes, the one at the address least significant, signed or unsigned. -/
theorem loadHalfwords : Obligations.LoadHalfwords :=
  ⟨load_rule rfl (fun _ _ _ _ => rfl) fun m a => by rw [signExtend_eq_w32 (by decide), readLE_two_toNat],
    load_rule rfl (fun _ _ _ _ => rfl) fun m a => by rw [setWidth_eq_w32, readLE_two_toNat]; push_cast; rfl⟩

/-- Settles O33: the four bytes, the one at the address least significant, fill the register. -/
theorem loadWords : Obligations.LoadWords :=
  load_rule rfl (fun _ _ _ _ => rfl) fun m a => by
    rw [← w32_toNat (m.readLE a 4), readLE_four_toNat]
    push_cast
    rfl

end Sys2Proof.Machine.Loads
end

section
/-! # The stores

The three stores share one operation (rule R170), which writes the low bytes of a register at an address that the checks
allow and faults at any other. A row of shape `S` decodes their words and records as the other rows do, so that each
instruction brings its row and its width only (rules R171 to R173). -/

namespace Sys2Proof

/-! ## The word of shape `S` (rules R71, R72 and R74) -/

theorem immS_toInt_eq_spec (w : Word) : (immS w).toInt = Spec.immS w := by
  have hbits : (bitsS w).toNat = Spec.slice w 31 25 * 32 + Spec.slice w 11 7 := by
    rw [bitsS_toNat]
    rfl
  rw [immS_toInt, ← signed_toNat (by decide), hbits, Spec.immS]

theorem ofWord_s (w pc : Word) (mk : Reg → Reg → Int → Instr) : (Form.s mk).ofWord w pc = Spec.recordS mk w pc := by
  rw [Form.ofWord, rs2Field_eq, rs1Field_eq, immS_toInt_eq_spec, Spec.recordS]

end Sys2Proof

namespace Sys2Proof.Machine

/-! ## What a store does (rules R33, R34 and R170) -/

/-- A byte of the low `n` bytes of a word is that byte of the word. -/
theorem extract_setWidth_byte (x : Word) {k n : Nat} (hk : k < n) :
    (x.setWidth (8 * n)).extractLsb' (8 * k) 8 = x.extractLsb' (8 * k) 8 := by
  ext i hi
  have hin : 8 * k + i < 8 * n := by omega
  simp [hin]

section

variable {n : Nat} {i : Instr} {s : State} {rs2 rs1 : Reg} {imm : Int}
  (hi : exec i s = store n rs2 rs1 imm s)

include hi

theorem execFaults_of_store {kind : FaultKind} (hf : accessFault (Spec.ea s rs1 imm) n = some kind) :
    ExecFaults i s kind :=
  ⟨_, hi.trans (store_fault hf), raiseFault_faults s kind⟩

/-- An access that the checks allow changes the bytes it writes and the pc (rules R37 and R170). -/
theorem execStores_of_store (hn : AccessWidth n) (hm : s.mem.wf) (hf : accessFault (Spec.ea s rs1 imm) n = none) :
    ExecStores i s (Spec.ea s rs1 imm).toNat n (s.readReg rs2) := by
  refine ⟨_, hi.trans (store_ok hf), ⟨fun k hk => ?_, fun b hb => readByte_writeLE_outside _ hb⟩,
    fun _ => rfl, nextPc_eq_w32 s, rfl, rfl, rfl⟩
  exact (readByte_writeLE_inside hm (access_inside hn hf) _ hk).trans (extract_setWidth_byte _ hk)

end

section

variable {n : Nat} {op : String} {pattern : Word} {mk : Reg → Reg → Int → Instr}
  (hrow : rowOfOp op = some ⟨op, pattern, 0x707F, .s mk⟩)
  (hexec : ∀ rs2 rs1 imm s, exec (mk rs2 rs1 imm) s = store n rs2 rs1 imm s)

include hexec

theorem needsAlignment_of_store : Spec.NeedsAlignment mk n := fun rs2 rs1 imm s hin hmis =>
  execFaults_of_store (hexec rs2 rs1 imm s) (accessFault_of_inBounds_misaligned hin hmis)

theorem stores_of_exec (hn : AccessWidth n) : Spec.Stores mk n := fun rs2 rs1 imm s =>
  ⟨fun hm hin hal => execStores_of_store (hexec rs2 rs1 imm s) hn hm (accessFault_of_inBounds hin hal),
    fun hout => execFaults_of_store (hexec rs2 rs1 imm s) (accessFault_of_not_inBounds hout n)⟩

include hrow

/-- A row of shape `S` and the width its instruction writes give the whole of its rule. -/
theorem store_rule (hn : AccessWidth n) : Spec.Decodes 0x707F pattern (Spec.recordS mk) ∧ Spec.RecordBase op mk ∧
    Spec.NeedsAlignment mk n ∧ Spec.Stores mk n :=
  ⟨decodes_of_mem_rows (rowOfOp_eq_some hrow).1 fun w pc => ofWord_s w pc mk,
    record2_of_rowOfOp hrow rfl fun _ _ _ => rfl, needsAlignment_of_store hexec, stores_of_exec hexec hn⟩

end

/-! ## The three instructions -/

/-- Settles O34: the rule of a store for one byte, which no address misaligns. -/
theorem storeBytes : Obligations.StoreBytes := by
  obtain ⟨hword, hrecord, -, hstores⟩ :=
    store_rule (op := "sb") (mk := .sb) rfl (fun _ _ _ _ => rfl) (by decide)
  exact ⟨hword, hrecord, hstores⟩

/-- Settles O35: the rule of a store for two bytes. -/
theorem storeHalfwords : Obligations.StoreHalfwords :=
  store_rule rfl (fun _ _ _ _ => rfl) (by decide)

/-- Settles O36: the rule of a store for the four bytes of the register. -/
theorem storeWords : Obligations.StoreWords :=
  store_rule rfl (fun _ _ _ _ => rfl) (by decide)

end Sys2Proof.Machine
end

section
/-! # Faults, the first step and a placed word

A step that ends in `Faulted` has taken a fault at an element it fetched (rule R190). The step after a reset and the one
after a placing follow from what stands at the pc (rules R90, R91 and R211). -/

namespace Sys2Proof.Machine

variable {s t : State} {kind : FaultKind} {pc : Word} {offender : Offender}

/-! ## Precise faults (rule R190) -/

/-- No step but the one that takes a fault ends in `Faulted`: a HALT does not, and an instruction without a fault keeps
the status. -/
theorem exists_raiseFault_of_step_faulted (h : step s = .next t) (ht : t.status = .faulted kind pc offender) :
    ∃ k, t = s.raiseFault k := by
  obtain ⟨hr, ⟨-, rfl⟩ | ⟨e, -, ⟨k, -, rfl⟩ | ⟨i, -, hx⟩⟩⟩ := step_cases h
  · cases ht
  · exact ⟨k, rfl⟩
  · obtain hs | hfault := (effect_of_exec hx).status_cases
    · cases hr.symm.trans (hs.symm.trans ht)
    · exact hfault

/-- A load that ends in `Faulted` has failed, since a program in place is `Running`. -/
theorem exists_failedLoad_of_loadLines_faulted {lines : List (List String)} (h : loadLines lines = .next t)
    (ht : t.status = .faulted kind pc offender) : ∃ e, t = State.failedLoad e := by
  obtain hfail | ⟨p, -, -, -, rfl⟩ := loadLines_cases h
  · exact hfail
  · cases ht

/-- Settles O11: the fault that a step takes changes the status only, and a failed load is the reset state but for its
status. -/
theorem faultsArePrecise : Obligations.FaultsArePrecise := by
  refine ⟨fun s t kind pc offender h ht => ?_, fun lines t kind pc offender h ht => ?_⟩
  · obtain ⟨e, hf, he⟩ := step_fault_offender h ht
    obtain ⟨k, rfl⟩ := exists_raiseFault_of_step_faulted h ht
    obtain ⟨-, hframe⟩ := raiseFault_faults s k
    have hpc : pc = s.pc := by cases ht; rfl
    exact ⟨hpc, ⟨e, (fetchEntry_eq s).symm.trans hf, he⟩, hframe⟩
  · obtain ⟨e, rfl⟩ := exists_failedLoad_of_loadLines_faulted h ht
    cases ht
    rfl

/-! ## The first step after a reset (rule R211) -/

theorem hostReset_fetchEntry (s : State) : (hostReset s).fetchEntry = s.program[0]? := by
  rw [hostReset_eq_boot, fetchEntry_eq, boot_program, boot_pc]
  rfl

/-- Settles O2: the pc is 0 after a reset, and a step that fetches nothing halts. -/
theorem firstStepFetchesTheFirstInstruction : Obligations.FirstStepFetchesTheFirstInstruction := by
  refine fun s => ⟨hostReset_fetchEntry s, fun hlen => ?_⟩
  have hnone : (hostReset s).fetchEntry = none := by
    rw [hostReset_fetchEntry, List.getElem?_eq_none_iff, hlen]
  exact ⟨_, step_halt rfl hnone, halt_status _⟩

/-! ## A word placed at the fetch (rule R90) -/

theorem tableWord_toNat (w : Word) : tableWord 32 w.toNat = w := by
  rw [tableWord, Nat.mod_eq_of_lt w.isLt, BitVec.ofNat_toNat, BitVec.setWidth_eq]

/-- Settles O49: the word placed is the element fetched, and the placing keeps the pc that it is decoded at. -/
theorem placedWordRunsNext : Obligations.PlacedWordRunsNext := by
  intro s w i hd
  refine ⟨step_decoded (withFetchWord_status ..) (withFetchWord_fetchEntry ..) ?_, fun _ => rfl, rfl, fun _ => rfl⟩
  rw [tableWord_toNat, withFetchWord_pc]
  exact hd

end Sys2Proof.Machine
end
